-- ==== Sys2Proof/Word.lean ====
section
/-! DEFINITION. The word types of the machine (spec/00_scope.md R7, R9). -/

namespace Sys2Proof

/-- A Memory word, `Word64` of spec/00_scope.md R9: `WORD_WIDTH` = 64 bits (R7). -/
abbrev Word := BitVec 64

/-- An Instruction Word, `Word112` of spec/00_scope.md R9: `INSTR_WIDTH` = 112 bits (R7). -/
abbrev InstrWord := BitVec 112

/-- One byte of a serialised word (spec/00_scope.md R9). -/
abbrev Byte := BitVec 8

end Sys2Proof
end

