-- ==== Sys2Proof/Config.lean ====
section
/-! DEFINITION. The machine's parameters at the values of spec/00_scope.md R7.

The spec leaves no value of a run open (spec/43_engine_harness.md R170), so no constant here is a free value.
SCHEMA's own table stands in Sys2Proof/Decode.lean; `EA_WRAP` = none, `DUMP_DENSE` = true and the unbounded
counters are built into the operations (log entries 11, 12 and 15). -/

namespace Sys2Proof.Config

/-- `INSTR_WIDTH`: bits in an Instruction Word (R7, R70). -/
def instrWidth : Nat := 112

/-- `INSTR_BYTES`: bytes in a serialised word (R7, R80). -/
def instrBytes : Nat := 14

/-- `OPCODE_WIDTH`: bits of the opcode, at the bottom of the word (R7, R71). -/
def opcodeWidth : Nat := 5

/-- `OPCODE_MASK` (R7). -/
def opcodeMask : Nat := 2 ^ opcodeWidth - 1

/-- `WORD_MASK` (R7). -/
def wordMask : Nat := 2 ^ 64 - 1

/-- Width of the constant of `LOAD_CONST` (spec/30_encoding.md R74; DESIGN CHOICE of the spec, D2, log 10). -/
def constantBits : Nat := 64

/-- Width of every address field (R74; DESIGN CHOICE of the spec, D2, log 10). -/
def addressBits : Nat := 32

/-- Width of the offset of `READ_MEM` and `NOT_MEM` (R74; DESIGN CHOICE of the spec, D2, log 10). -/
def offsetBits : Nat := 16

/-- What an address that was never written reads as: "Unwritten addresses read as zero" (R27, R41). -/
def unwritten : Word := 0

end Sys2Proof.Config
end

