-- ==== Sys2Proof/Syntax.lean ====
section
/-! DEFINITION. The syntax of the machine: the four instructions, the terms of the field and instruction schema,
the encoder's input, the decoder's output and the eight errors (spec/00_scope.md R12, spec/60_exceptions.md R180). -/

namespace Sys2Proof

/-- The closed sum of the four instructions, one constructor per row of spec/opcode_table.json.
The operands are integers, so that a hand-built instruction (spec/42_execute_instructions.md R152) is a term too;
`Instr.wellFormed` picks out those a word can hold. DESIGN CHOICE, log 7. -/
inductive Instr where
  /-- `LOAD_CONST(B=constant, C=destination address)` (R141). -/
  | loadConst (b c : Int)
  /-- `READ_MEM(B=pointer address, C=offset, D=destination address)` (R142). -/
  | readMem (b c d : Int)
  /-- `WRITE_MEM(B=source address, C=destination address)` (R143). -/
  | writeMem (b c : Int)
  /-- `NOT_MEM(B=pointer address, C=offset, D=destination address)` (R144). -/
  | notMem (b c d : Int)
  deriving DecidableEq, Repr

/-- A Field Definition: one operand's bit range inside the word of one instruction (spec/30_encoding.md R72). -/
structure FieldDefinition where
  name : String
  startBit : Nat
  endBit : Nat
  deriving DecidableEq, Repr

/-- The derived `width` of a Field Definition (R72). -/
def FieldDefinition.width (f : FieldDefinition) : Nat := f.endBit - f.startBit + 1

/-- The derived `mask` of a Field Definition (R72). -/
def FieldDefinition.mask (f : FieldDefinition) : Nat := 2 ^ f.width - 1

/-- An Instruction Definition: one row of SCHEMA (R73). -/
structure InstructionDefinition where
  mnemonic : String
  opcode : Nat
  orderedFields : List FieldDefinition
  deriving DecidableEq, Repr

/-- The field names of a definition, in `ordered_fields` order (R73). -/
def InstructionDefinition.names (d : InstructionDefinition) : List String := d.orderedFields.map (·.name)

/-- A table of Instruction Definitions; the machine's own is `schema` of Sys2Proof/Decode.lean (R74). -/
abbrev Schema := List InstructionDefinition

/-- A finite map from field names to integers, `Map Str Int` of spec/00_scope.md R9.
It is a map when no name occurs twice (`FieldMap.wellFormed`; log 17). -/
abbrev FieldMap := List (String × Int)

/-- The Instruction IR, the encoder's input (spec/40_schema_encoder.md R100). -/
structure InstructionIR where
  mnemonic : String
  fields : FieldMap
  deriving DecidableEq, Repr

/-- A Machine Instruction, the decoder's output (spec/41_decoder_loader.md R123).
A caller may also build one by hand (spec/42_execute_instructions.md R152). -/
structure MachineInstruction where
  definition : InstructionDefinition
  fields : FieldMap
  raw : InstrWord
  deriving DecidableEq, Repr

/-- The eight errors, each with the value it records (spec/60_exceptions.md R180). -/
inductive MachineError where
  /-- ENC: the keys are not exactly the definition's field names (R182). -/
  | schemaError (missing extra : List String)
  /-- ENC: a value is negative or above its field's mask (R183). -/
  | rangeError (field : String) (width : Nat) (value : Int)
  /-- ENC: the mnemonic, as supplied, is none of the table's (R184). -/
  | unknownMnemonic (mnemonic : String)
  /-- DEC: no definition has this opcode (R185). -/
  | unknownOpcode (opcode : Nat)
  /-- MEM: the address is negative (R186). -/
  | invalidAddress (address : Int)
  /-- MEM `dump`: not `0 <= start <= end` (R187). -/
  | invalidRange (first last : Int)
  /-- Loader: the blob's length is no multiple of 14 (R188). -/
  | malformedBinary (length : Nat)
  /-- ENG dispatch: the mnemonic is none of the four (R189). -/
  | unsupportedInstruction (mnemonic : String)
  deriving DecidableEq, Repr

/-- An error as a transaction over a sequence reports it: with the position of the offending instruction or chunk,
counted from 0, where it has one (spec/40_schema_encoder.md R106, spec/41_decoder_loader.md R127). -/
structure LocatedError where
  error : MachineError
  position : Option Nat
  deriving DecidableEq, Repr

/-- Why a Machine Instruction is none of the four instructions (spec/42_execute_instructions.md R152 (a), (d)). -/
inductive DispatchError where
  /-- Its mnemonic is outside the four: UnsupportedInstructionError (R152 (a), R189). -/
  | unsupported (mnemonic : String)
  /-- Its mapping lacks a field the effect reads: no behaviour is defined (R152 (d), U6; log 8). -/
  | missingField (mnemonic field : String)
  deriving DecidableEq, Repr

end Sys2Proof
end

