-- ==== Sys2Proof/WellFormed.lean ====
section
/-! DEFINITION. What a well-formed instruction, field map, Field Definition, Instruction Definition and SCHEMA are
(spec/30_encoding.md R72 to R74). -/

namespace Sys2Proof

/-- `0 <= v <= mask` for an unsigned field of `bits` bits (spec/40_schema_encoder.md R103). -/
def fitsField (bits : Nat) (v : Int) : Bool := decide (0 ≤ v) && decide (v ≤ ((2 ^ bits - 1 : Nat) : Int))

/-- Every operand is a value its field can hold (R74, R76). -/
def Instr.wellFormed : Instr → Bool
  | .loadConst b c => fitsField Config.constantBits b && fitsField Config.addressBits c
  | .readMem b c d =>
    fitsField Config.addressBits b && fitsField Config.offsetBits c && fitsField Config.addressBits d
  | .writeMem b c => fitsField Config.addressBits b && fitsField Config.addressBits c
  | .notMem b c d =>
    fitsField Config.addressBits b && fitsField Config.offsetBits c && fitsField Config.addressBits d

/-- No name occurs twice: the list is a map (spec/40_schema_encoder.md R100, U13). -/
def FieldMap.wellFormed (m : FieldMap) : Bool := decide (m.map Prod.fst).Nodup

/-- R72 (a) and (c): the range lies above the opcode and inside the word. -/
def FieldDefinition.wellFormed (f : FieldDefinition) : Bool :=
  decide (Config.opcodeWidth ≤ f.startBit) && decide (f.startBit ≤ f.endBit)
    && decide (f.endBit < Config.instrWidth)

/-- The two bit ranges have no bit in common (R72 (b)). -/
def FieldDefinition.disjoint (f g : FieldDefinition) : Bool :=
  decide (f.endBit < g.startBit) || decide (g.endBit < f.startBit)

/-- R71 to R73: the opcode fits its five bits, every field is well formed, no two fields overlap, and the names are
distinct. -/
def InstructionDefinition.wellFormed (d : InstructionDefinition) : Bool :=
  decide (d.opcode ≤ Config.opcodeMask) && d.orderedFields.all FieldDefinition.wellFormed
    && decide (d.orderedFields.Pairwise fun f g => f.disjoint g = true)
    && decide d.names.Nodup

/-- R73: every definition is well formed, and the mnemonics and the opcodes are distinct. -/
def Schema.wellFormed (S : Schema) : Bool :=
  S.all InstructionDefinition.wellFormed
    && decide (S.map (·.mnemonic)).Nodup && decide (S.map (·.opcode)).Nodup

/-- The four mnemonics and their field names: the source's part of SCHEMA (R74). -/
def Schema.sourceNames : List (String × List String) :=
  [("LOAD_CONST", ["B", "C"]), ("READ_MEM", ["B", "C", "D"]), ("WRITE_MEM", ["B", "C"]),
    ("NOT_MEM", ["B", "C", "D"])]

/-- R74: exactly the four mnemonics, each with exactly the source's field names, in any order. -/
def Schema.named (S : Schema) : Bool :=
  decide (S.length = 4)
    && Schema.sourceNames.all fun p => S.any fun d => d.mnemonic == p.1 && decide (d.names.Perm p.2)

end Sys2Proof
end

