-- ==== Sys2Proof/Decode.lean ====
section
/-! DEFINITION. SCHEMA's table, the decoder DEC, the serialisation of words, the loader, and after them the encoder ENC
(spec/30_encoding.md, spec/41_decoder_loader.md, spec/40_schema_encoder.md).

ENC and DEC are written over any table `S` (R74: the numbers are the free part); the names without `In` use the
machine's own table `schema`. Every rejection is an error of spec/60_exceptions.md R180. -/

namespace Sys2Proof

/-! ### SCHEMA -/

/-- The default SCHEMA, `[end_bit:start_bit]` as in spec/30_encoding.md R74 (decisions D1, D2; log 10). -/
def schema : Schema :=
  [{ mnemonic := "LOAD_CONST", opcode := 1,
     orderedFields := [{ name := "B", startBit := 5, endBit := 68 }, { name := "C", startBit := 69, endBit := 100 }] },
   { mnemonic := "READ_MEM", opcode := 2,
     orderedFields := [{ name := "B", startBit := 5, endBit := 36 }, { name := "C", startBit := 37, endBit := 52 },
       { name := "D", startBit := 53, endBit := 84 }] },
   { mnemonic := "WRITE_MEM", opcode := 3,
     orderedFields := [{ name := "B", startBit := 5, endBit := 36 }, { name := "C", startBit := 37, endBit := 68 }] },
   { mnemonic := "NOT_MEM", opcode := 4,
     orderedFields := [{ name := "B", startBit := 5, endBit := 36 }, { name := "C", startBit := 37, endBit := 52 },
       { name := "D", startBit := 53, endBit := 84 }] }]

/-! ### The decoder -/

/-- `(word >> start_bit) & mask` (R76, R122). -/
def FieldDefinition.extract (f : FieldDefinition) (w : InstrWord) : Nat := w.toNat >>> f.startBit &&& f.mask

/-- `extract(definition, word)`: one value per declared field, never failing (R122). -/
def InstructionDefinition.extract (d : InstructionDefinition) (w : InstrWord) : FieldMap :=
  d.orderedFields.map fun f => (f.name, (f.extract w : Int))

/-- `w[4:0]` (R71, R121). -/
def opcodeOf (w : InstrWord) : Nat := w.toNat &&& Config.opcodeMask

/-- `lookup_opcode(word)` (R121). -/
def lookupOpcodeIn (S : Schema) (w : InstrWord) : Except MachineError InstructionDefinition :=
  match S.find? fun d => d.opcode == opcodeOf w with
  | some d => .ok d
  | none => .error (.unknownOpcode (opcodeOf w))

/-- `decode_word(word)` (R123), over a table `S`. -/
def decodeWordIn (S : Schema) (w : InstrWord) : Except MachineError MachineInstruction :=
  match lookupOpcodeIn S w with
  | .ok d => .ok { definition := d, fields := d.extract w, raw := w }
  | .error e => .error e

/-- `decode_word(word)` of the machine (R123). -/
def decodeWord (w : InstrWord) : Except MachineError MachineInstruction := decodeWordIn schema w

/-- The value of the field `n` in the mapping of a Machine Instruction, `field(I, n)` of R10; a mapping that lacks it
has no behaviour (R152 (d), log 8). -/
def MachineInstruction.operand (mi : MachineInstruction) (n : String) : Except DispatchError Int :=
  match mi.fields.lookup n with
  | some v => .ok v
  | none => .error (.missingField mi.definition.mnemonic n)

/-- The dispatch of R140: the mnemonic, and nothing else, selects one of the four instructions.
Fields the effect does not read are ignored (U6, log 8). -/
def MachineInstruction.dispatch (mi : MachineInstruction) : Except DispatchError Instr :=
  if mi.definition.mnemonic = "LOAD_CONST" then do
    let b ← mi.operand "B"
    let c ← mi.operand "C"
    return .loadConst b c
  else if mi.definition.mnemonic = "READ_MEM" then do
    let b ← mi.operand "B"
    let c ← mi.operand "C"
    let d ← mi.operand "D"
    return .readMem b c d
  else if mi.definition.mnemonic = "WRITE_MEM" then do
    let b ← mi.operand "B"
    let c ← mi.operand "C"
    return .writeMem b c
  else if mi.definition.mnemonic = "NOT_MEM" then do
    let b ← mi.operand "B"
    let c ← mi.operand "C"
    let d ← mi.operand "D"
    return .notMem b c d
  else .error (.unsupported mi.definition.mnemonic)

/-- The instruction a word stands for. What `decode_word` yields always dispatches (R151), so the two arms after a
failed dispatch are never taken. -/
def decodeInstr (w : InstrWord) : Except MachineError Instr :=
  match decodeWord w with
  | .error e => .error e
  | .ok mi =>
    match mi.dispatch with
    | .ok i => .ok i
    | .error (.unsupported m) => .error (.unsupportedInstruction m)
    | .error (.missingField m _) => .error (.unsupportedInstruction m)

/-! ### Serialisation -/

/-- The 14 little-endian bytes of a word: byte `i` is `w[8i+7:8i]` (R80, R47). -/
def bytesOf (w : InstrWord) : List Byte := (List.range Config.instrBytes).map fun i => w.extractLsb' (8 * i) 8

/-- `Σ b[i] << 8i` (R81). -/
def littleEndian : List Byte → Nat
  | [] => 0
  | b :: bs => b.toNat + 256 * littleEndian bs

/-- The word of 14 bytes (R81). -/
def wordOf (b : List Byte) : InstrWord := BitVec.ofNat 112 (littleEndian b)

/-- The binary program: the words' bytes, one after the other (R82). -/
def blob (ws : List InstrWord) : List Byte := ws.flatMap bytesOf

/-- The instruction that 14 bytes hold; any other number of bytes is refused by name. -/
def decodeBytes (b : List Byte) : Except MachineError Instr :=
  if b.length = Config.instrBytes then decodeInstr (wordOf b) else .error (.malformedBinary b.length)

/-! ### The loader -/

/-- The first `n` chunks of 14 bytes (R82, R126). -/
def chunks : Nat → List Byte → List (List Byte)
  | 0, _ => []
  | n + 1, b => b.take Config.instrBytes :: chunks n (b.drop Config.instrBytes)

/-- Decodes the chunks in ascending order, the first of them being chunk `k`; the first failure ends it (R126, R127). -/
def decodeChunksIn (S : Schema) : Nat → List (List Byte) → Except LocatedError (List MachineInstruction)
  | _, [] => .ok []
  | k, c :: cs =>
    match decodeWordIn S (wordOf c) with
    | .error e => .error { error := e, position := some k }
    | .ok mi =>
      match decodeChunksIn S (k + 1) cs with
      | .error e => .error e
      | .ok mis => .ok (mi :: mis)

/-- `load(blob)`, over a table `S`: the length first, then the chunks (R126, R127). -/
def loadIn (S : Schema) (b : List Byte) : Except LocatedError (List MachineInstruction) :=
  if b.length % Config.instrBytes = 0 then decodeChunksIn S 0 (chunks (b.length / Config.instrBytes) b)
  else .error { error := .malformedBinary b.length, position := none }

/-- `load(blob)` of the machine (R126). -/
def load (b : List Byte) : Except LocatedError (List MachineInstruction) := loadIn schema b

/-! ### The encoder -/

/-- `a..z` to `A..Z`, every other character unchanged (R101; D7, log 13). -/
def upperChar (c : Char) : Char := if 'a' ≤ c ∧ c ≤ 'z' then Char.ofNat (c.toNat - 32) else c

/-- `upper(m)` (R101). -/
def upper (m : String) : String := String.ofList (m.toList.map upperChar)

/-- `lookup_mnemonic(m)` (R101), over a table `S`; the error carries the mnemonic as supplied (R111). -/
def lookupMnemonicIn (S : Schema) (m : String) : Except MachineError InstructionDefinition :=
  match S.find? fun d => d.mnemonic == upper m with
  | some d => .ok d
  | none => .error (.unknownMnemonic m)

/-- Insertion of a name into names in ascending order of character code (R102; D9, log 14). -/
def insertName (n : String) : List String → List String
  | [] => [n]
  | m :: ms => if m < n then m :: insertName n ms else n :: m :: ms

/-- Names in ascending order of character code (R102). -/
def sortNames : List String → List String
  | [] => []
  | n :: ns => insertName n (sortNames ns)

/-- The declared names that `values` does not supply, in `ordered_fields` order (R102). -/
def InstructionDefinition.missing (d : InstructionDefinition) (values : FieldMap) : List String :=
  d.names.filter fun n => (values.lookup n).isNone

/-- The supplied names that `d` does not declare, in ascending order (R102). -/
def InstructionDefinition.extra (d : InstructionDefinition) (values : FieldMap) : List String :=
  sortNames ((values.map Prod.fst).filter fun n => !d.names.contains n)

/-- `check_schema(d, values)` (R102). -/
def InstructionDefinition.checkSchema (d : InstructionDefinition) (values : FieldMap) : Except MachineError Unit :=
  if d.missing values = [] ∧ d.extra values = [] then .ok ()
  else .error (.schemaError (d.missing values) (d.extra values))

/-- The value supplied for a field; the schema check has passed before it is asked for (R103). -/
def FieldDefinition.supplied (f : FieldDefinition) (values : FieldMap) : Int := (values.lookup f.name).getD 0

/-- `0 <= value <= mask` (R103). -/
def FieldDefinition.inRange (f : FieldDefinition) (values : FieldMap) : Bool :=
  fitsField f.width (f.supplied values)

/-- `check_range(d, values)`: the first field out of range, in `ordered_fields` order, is the one named (R103). -/
def InstructionDefinition.checkRange (d : InstructionDefinition) (values : FieldMap) : Except MachineError Unit :=
  match d.orderedFields.find? fun f => !f.inRange values with
  | none => .ok ()
  | some f => .error (.rangeError f.name f.width (f.supplied values))

/-- The bits that a list of fields contributes, over `acc` (R104). -/
def packOnto (values : FieldMap) (acc : Nat) (fs : List FieldDefinition) : Nat :=
  fs.foldl (fun w f => w ||| (f.supplied values).toNat <<< f.startBit) acc

/-- `pack(d, values)`: `opcode | Σ(value_i << start_i)` (R104). -/
def InstructionDefinition.pack (d : InstructionDefinition) (values : FieldMap) : InstrWord :=
  BitVec.ofNat 112 (packOnto values d.opcode d.orderedFields)

/-- `encode(d, values)`: schema check, range check, packing, in that order (R105). -/
def InstructionDefinition.encode (d : InstructionDefinition) (values : FieldMap) : Except MachineError InstrWord :=
  match d.checkSchema values with
  | .error e => .error e
  | .ok () =>
    match d.checkRange values with
    | .error e => .error e
    | .ok () => .ok (d.pack values)

/-- One round of `encode_program`: mnemonic lookup, "otherwise" `encode` (R106). -/
def encodeIRIn (S : Schema) (ir : InstructionIR) : Except MachineError InstrWord :=
  match lookupMnemonicIn S ir.mnemonic with
  | .error e => .error e
  | .ok d => d.encode ir.fields

/-- `encode_program` of a sequence whose first instruction has position `k` (R106). -/
def encodeFromIn (S : Schema) : Nat → List InstructionIR → Except LocatedError (List InstrWord)
  | _, [] => .ok []
  | k, ir :: irs =>
    match encodeIRIn S ir with
    | .error e => .error { error := e, position := some k }
    | .ok w =>
      match encodeFromIn S (k + 1) irs with
      | .error e => .error e
      | .ok ws => .ok (w :: ws)

/-- `encode_program(ir)`, over a table `S` (R106). -/
def encodeProgramIn (S : Schema) (ir : List InstructionIR) : Except LocatedError (List InstrWord) :=
  encodeFromIn S 0 ir

/-- `encode_program(ir)` of the machine (R106). -/
def encodeProgram (ir : List InstructionIR) : Except LocatedError (List InstrWord) := encodeProgramIn schema ir

/-- `assemble(ir) = blob(encode_program(ir))` (R112). -/
def assemble (ir : List InstructionIR) : Except LocatedError (List Byte) :=
  match encodeProgram ir with
  | .ok ws => .ok (blob ws)
  | .error e => .error e

/-- The bits of a word that are opcode or field of `d` (R75). -/
def InstructionDefinition.usedMask (d : InstructionDefinition) : Nat :=
  d.orderedFields.foldl (fun m f => m ||| f.mask <<< f.startBit) Config.opcodeMask

/-- `canon(w)`: the word with its unused bits cleared (R87). -/
def InstructionDefinition.canon (d : InstructionDefinition) (w : InstrWord) : InstrWord :=
  w &&& BitVec.ofNat 112 d.usedMask

/-- The mnemonic of an instruction (R74). -/
def Instr.mnemonic : Instr → String
  | .loadConst .. => "LOAD_CONST"
  | .readMem .. => "READ_MEM"
  | .writeMem .. => "WRITE_MEM"
  | .notMem .. => "NOT_MEM"

/-- The field mapping of an instruction (R74). -/
def Instr.fieldMap : Instr → FieldMap
  | .loadConst b c => [("B", b), ("C", c)]
  | .readMem b c d => [("B", b), ("C", c), ("D", d)]
  | .writeMem b c => [("B", b), ("C", c)]
  | .notMem b c d => [("B", b), ("C", c), ("D", d)]

/-- The IR an assembler supplies for an instruction (R85, R100). -/
def Instr.toIR (i : Instr) : InstructionIR := { mnemonic := i.mnemonic, fields := i.fieldMap }

/-- The word of an instruction, as ENC makes it; an ill-formed one is refused by name. -/
def encode (i : Instr) : Except MachineError InstrWord := encodeIRIn schema i.toIR

/-! ### Errors as numbers -/

/-- The numeric code of an error, 1 to 8 in the order of R180 (D16, log 20). -/
def MachineError.code : MachineError → Nat
  | .schemaError .. => 1
  | .rangeError .. => 2
  | .unknownMnemonic .. => 3
  | .unknownOpcode .. => 4
  | .invalidAddress .. => 5
  | .invalidRange .. => 6
  | .malformedBinary .. => 7
  | .unsupportedInstruction .. => 8

/-! ### The host's reading of one table word -/

/-- The instruction word whose low `nbits` bits are those of `w`, every bit above them 0. -/
def tableWord (nbits w : Nat) : InstrWord := BitVec.ofNat 112 (w % 2 ^ nbits)

/-- What the decoder reads from the bytes of that word. -/
def decodeTableWord (nbits w : Nat) : Option Instr := (decodeBytes (bytesOf (tableWord nbits w))).toOption

end Sys2Proof
end

