-- ==== Sys2Proof/Machine/State.lean ====
section
/-! DEFINITION. The machine's state, the reasons a step can stop, and the state after reset
(spec/10_state.md R32, spec/70_reset_and_hazards.md R211). -/

namespace Sys2Proof.Machine

/-- Why `step` stops. Nothing here is an effect of an instruction: an error of an instruction is a next state with
`State.error` set (R163, R196; log 6). Each constructor names a terminal state of the engine, in which no step is
enabled (R162, R164; log 5), and is safe: the run is over, so nothing is lost by stopping. -/
inductive Fault where
  /-- Raised by `step` in Halted: `pc` at or past the program's end. Terminal, successful, no error (R164, R204). Safe. -/
  | halted
  /-- Raised by `step` in Suspended-by-budget: the cap is reached before the end. Terminal, no error (R164, R204). Safe. -/
  | suspendedByBudget
  /-- Raised by `step` in Faulted: an earlier instruction of this run raised `e` (R196). Safe. -/
  | faulted (e : MachineError)
  deriving DecidableEq, Repr

/-- Why the model gives no meaning. -/
inductive Refusal where
  /-- Raised by `exec` for an instruction that has no meaning yet; no arm does so. Safe. -/
  | notModelled (mnemonic : String)
  /-- Raised by `step` for a hand-built Machine Instruction whose mapping lacks a field its effect reads: the spec gives
  it no behaviour and asks for a refusal (R152 (d), U6; log 8). Safe. -/
  | missingField (mnemonic field : String)
  deriving DecidableEq, Repr

/-- Data Memory as plain data: the cells whose word differs from what an unwritten address reads as, by strictly rising
address (`Memory.wf` of Ops.lean). A cell is a 64-bit word (R42; log 1). -/
abbrev Memory := List (Nat × Word)

/-- The engine's run state (R25). Not stored: `runState` of Flags.lean computes it. -/
inductive RunState where
  | running
  | halted
  | suspendedByBudget
  | faulted
  deriving DecidableEq, Repr

/-- The Execution Result (R33). Not stored: `executionResult` of Flags.lean computes it. -/
structure ExecutionResult where
  stepsExecuted : Nat
  halted : Bool
  deriving DecidableEq, Repr

/-- The outcome of a `run` transaction (R160): Execution Result and Memory, an error, or (a hand-built instruction with
a field missing) a refusal of the model. -/
inductive RunOutcome where
  | ok (result : ExecutionResult) (mem : Memory)
  | err (e : MachineError)
  | refused (r : Refusal)
  deriving DecidableEq, Repr

/-- Every piece of state of R32. -/
structure State where
  /-- The program counter, an index into `program` (R21). -/
  pc : Nat
  /-- The step counter (R22). -/
  steps : Nat
  /-- The step cap `max_steps`; `none` is no cap (R24). -/
  budget : Option Nat
  /-- The program store (R26). -/
  program : List MachineInstruction
  /-- Data Memory (R27). -/
  mem : Memory
  /-- The error recorded by the run; `some` in Faulted and nowhere else (R196, R211). -/
  error : Option MachineError
  deriving DecidableEq, Repr

/-- Right after reset, with no caller's budget and nothing loaded (R211, R212).
The empty program and the budget `none` are DESIGN CHOICES, log 3; every other value is the spec's. -/
def State.reset : State :=
  { pc := 0, steps := 0, budget := none, program := [], mem := [], error := none }

end Sys2Proof.Machine
end

