-- ==== Sys2Proof/Machine/Ops.lean ====
section
/-! DEFINITION. The named operations over Memory and the engine's state: reading, writing and dumping Memory, committing
an instruction's effect, taking an error, advancing, starting a run, loading (spec/20_memory.md, spec/43_engine_harness.md).

There are no general registers to operate on (spec/10_state.md R20). -/

namespace Sys2Proof.Machine

/-! ### Memory -/

/-- `mem(a)`: the word at an address, 0 where nothing was written (R27, R41). -/
def Memory.word : Memory → Nat → Word
  | [], _ => Config.unwritten
  | (k, x) :: m, a => if k = a then x else Memory.word m a

/-- `x` at address `a` in front of cells that lie above `a`: no cell where `x` is what an unwritten address reads as. -/
def Memory.cell (a : Nat) (x : Word) (m : Memory) : Memory := if x = Config.unwritten then m else (a, x) :: m

/-- `mem[a := x]`, every other address keeping its value; the canonical form is kept (R44; log 2). -/
def Memory.put : Memory → Nat → Word → Memory
  | [], a, x => Memory.cell a x []
  | (k, y) :: m, a, x =>
    if k < a then (k, y) :: Memory.put m a x
    else if k = a then Memory.cell a x m
    else Memory.cell a x ((k, y) :: m)

/-- The canonical form from address `lo` up: strictly rising addresses, no cell that reads as unwritten. -/
def Memory.wfFrom : Nat → Memory → Bool
  | _, [] => true
  | lo, (k, x) :: m => decide (lo ≤ k) && decide (x ≠ Config.unwritten) && Memory.wfFrom (k + 1) m

/-- The canonical form of a Memory (log 2). -/
def Memory.wf (m : Memory) : Bool := Memory.wfFrom 0 m

/-- `v & WORD_MASK`: the value modulo 2^64, negative values too (R44, R45; G1, log 16). -/
def maskWord (v : Int) : Word := BitVec.ofInt 64 v

/-- `read(address)`, the primitive MemRead (R43). -/
def memRead (m : Memory) (a : Int) : Except MachineError Word :=
  if a < 0 then .error (.invalidAddress a) else .ok (m.word a.toNat)

/-- `write(address, value)`, the primitive MemWrite: the address check, then the masked store (R44). -/
def memWrite (m : Memory) (a v : Int) : Except MachineError Memory :=
  if a < 0 then .error (.invalidAddress a) else .ok (m.put a.toNat (maskWord v))

/-- `dump(start, end)`: one pair per address of the closed range, ascending (R46; dense, D13, log 12). -/
def memDump (m : Memory) (first last : Int) : Except MachineError (List (Nat × Word)) :=
  if 0 ≤ first ∧ first ≤ last then
    .ok ((List.range (last - first + 1).toNat).map fun k => (first.toNat + k, m.word (first.toNat + k)))
  else .error (.invalidRange first last)

/-! ### The end of an instruction's effect -/

/-- Taking an error in a run: the engine goes to Faulted with `e`, and nothing else changes (R163, R193, R196).
There is no return from it: Faulted is terminal (R195, R196). -/
def raise (e : MachineError) (s : State) : Host.Outcome State Fault Refusal := .next { s with error := some e }

/-- An instruction's effect on Memory, `Ok(mem')` or `Err(e)` (R140), as an effect on the state. -/
def commit (r : Except MachineError Memory) (s : State) : Host.Outcome State Fault Refusal :=
  match r with
  | .ok m => .next { s with mem := m }
  | .error e => raise e s

/-! ### Engine state -/

/-- `pc <- pc + 1; steps <- steps + 1` (R163). -/
def advance (s : State) : State := { s with pc := s.pc + 1, steps := s.steps + 1 }

/-- What the step adds around the effect: the increments, unless the effect raised an error (R163, D15). -/
def retire (o : Host.Outcome State Fault Refusal) : Host.Outcome State Fault Refusal :=
  match o with
  | .next t => if t.error = none then .next (advance t) else .next t
  | .fault f => .fault f
  | .refused r => .refused r

/-- Fetch: an indexed read of the program store (R163). -/
def fetch (s : State) : Option MachineInstruction := s.program[s.pc]?

/-- The state at the start of a run over a given Memory: the initial state of `run_from` (R161, R172). -/
def startOver (program : List MachineInstruction) (maxSteps : Option Nat) (mem0 : Memory) : State :=
  { pc := 0, steps := 0, budget := maxSteps, program := program, mem := mem0, error := none }

/-- The start of a run, the machine's one reset event: `pc` and `steps` 0, Memory all zero, no error, the caller's
budget; the program store is kept (R161, R210 to R212). -/
def startRun (maxSteps : Option Nat) (s : State) : State := startOver s.program maxSteps []

/-- `load(blob)` as a transaction on the state: on success the program store is written and nothing else; on an error
nothing is (R130, R174). -/
def loadInto (b : List Byte) (s : State) : Except LocatedError State :=
  match load b with
  | .ok p => .ok { s with program := p }
  | .error e => .error e

/-! ### Placing one instruction where the next step fetches (the host's `withFetchWord`) -/

/-- The program with `mi` at index `pc`; places below it that the program lacks are filled with `mi` too (log 4). -/
def placeAt : Nat → MachineInstruction → List MachineInstruction → List MachineInstruction
  | 0, mi, [] => [mi]
  | 0, mi, _ :: p => mi :: p
  | n + 1, mi, [] => mi :: placeAt n mi []
  | n + 1, mi, x :: p => x :: placeAt n mi p

/-- The budget, or none where it would stop the next step (log 4). -/
def openBudget (s : State) : Option Nat :=
  match s.budget with
  | none => none
  | some b => if s.steps < b then some b else none

/-- `s` with `mi` loaded where the next step fetches, and the step enabled (log 4). -/
def withFetched (mi : MachineInstruction) (s : State) : State :=
  { s with program := placeAt s.pc mi s.program, budget := openBudget s, error := none }

end Sys2Proof.Machine
end

