-- ==== Sys2Proof/Machine/Operands.lean ====
section
/-! DEFINITION. The addressing modes, in full (spec/42_execute_instructions.md R149), the two computations (R146) and
the accesses of each instruction in the order of spec/20_memory.md R58.

The immediate mode is the field itself; the direct mode is `memRead` or `memWrite` at the field. -/

namespace Sys2Proof.Machine

/-- The effective address `mem[B] + C` from the pointer cell's contents: the exact sum, no wrap (R146 (a); D18, log 11).
A hand-built offset may be negative; only a negative sum is an invalid address (R152; log 19). -/
def effectiveAddress (pointer : Word) (offset : Int) : Int := (pointer.toNat : Int) + offset

/-- The pointer-cell indirect mode with offset: `mem[mem[B] + C]`, two reads in this order (R145, R149, R58). -/
def readIndirect (m : Memory) (b c : Int) : Except MachineError Word :=
  match memRead m b with
  | .error e => .error e
  | .ok p => memRead m (effectiveAddress p c)

/-- `(~v) & WORD_MASK`: every one of the 64 bits inverted (R144, R146 (b)). -/
def complement (v : Word) : Word := ~~~v

/-- The write that ends an instruction, of the value its reads gave: no write where a read failed (R58, R147, R152 (b)). -/
def writeValue (r : Except MachineError Word) (m : Memory) (dest : Int) : Except MachineError Memory :=
  match r with
  | .error e => .error e
  | .ok v => memWrite m dest (v.toNat : Int)

/-- The complement of a read's value (R144). -/
def complemented (r : Except MachineError Word) : Except MachineError Word :=
  match r with
  | .error e => .error e
  | .ok v => .ok (complement v)

/-- The direct address an instruction writes to: `C` of `LOAD_CONST` and `WRITE_MEM`, `D` of the others (R58, R149). -/
def destination : Instr → Int
  | .loadConst _ c => c
  | .readMem _ _ d => d
  | .writeMem _ c => c
  | .notMem _ _ d => d

end Sys2Proof.Machine
end

