-- ==== Sys2Proof/Machine/Flags.lean ====
section
/-! DEFINITION. The machine has no status flag, condition code or predicate, and no instruction computes one
(spec/10_state.md R29). What status the engine has is its run state, and the conditions it is computed from stand here
(R25, R33; spec/43_engine_harness.md R162, R164, R165). -/

namespace Sys2Proof.Machine

/-- "pc within program bounds" (R162). -/
def inBounds (s : State) : Bool := decide (s.pc < s.program.length)

/-- No budget is set, or `steps < budget` (R162). -/
def budgetAllows (s : State) : Bool :=
  match s.budget with
  | none => true
  | some b => decide (s.steps < b)

/-- The run state (R25): an error first, then the program's end (before the budget, C3), then the budget. -/
def runState (s : State) : RunState :=
  if s.error ≠ none then .faulted
  else if inBounds s = false then .halted
  else if budgetAllows s = false then .suspendedByBudget
  else .running

/-- The step is enabled exactly in the Running state (R162). -/
def enabled (s : State) : Bool := decide (runState s = .running)

/-- The name under which `step` stops in a terminal state (R164, R196; log 5). -/
def terminalFault (s : State) : Option Fault :=
  match s.error with
  | some e => some (.faulted e)
  | none =>
    if inBounds s = false then some .halted
    else if budgetAllows s = false then some .suspendedByBudget
    else none

/-- The Execution Result computed at the terminal state (R165). -/
def executionResult (s : State) : ExecutionResult :=
  { stepsExecuted := s.steps, halted := !inBounds s }

end Sys2Proof.Machine
end

