-- ==== Sys2Proof/Machine/Constant.lean ====
section
/-! DEFINITION. The instruction of format LC (spec/30_encoding.md R75). -/

namespace Sys2Proof.Machine

/-- `LOAD_CONST(B, C)`: `mem[C] := B` (spec/42_execute_instructions.md R141). -/
def execLoadConst (b c : Int) (s : State) : Host.Outcome State Fault Refusal := commit (memWrite s.mem c b) s

end Sys2Proof.Machine
end

