-- ==== Sys2Proof/Machine/Copy.lean ====
section
/-! DEFINITION. The instruction of format CP (spec/30_encoding.md R75). -/

namespace Sys2Proof.Machine

/-- `WRITE_MEM(B, C)`: `mem[C] := mem[B]`, a direct copy (spec/42_execute_instructions.md R143). -/
def execWriteMem (b c : Int) (s : State) : Host.Outcome State Fault Refusal :=
  commit (writeValue (memRead s.mem b) s.mem c) s

end Sys2Proof.Machine
end

