-- ==== Sys2Proof/Machine/Indirect.lean ====
section
/-! DEFINITION. The instructions of format PO (spec/30_encoding.md R75): the indirect load and its complement. -/

namespace Sys2Proof.Machine

/-- `READ_MEM(B, C, D)`: `mem[D] := mem[mem[B] + C]` (spec/42_execute_instructions.md R142). -/
def execReadMem (b c d : Int) (s : State) : Host.Outcome State Fault Refusal :=
  commit (writeValue (readIndirect s.mem b c) s.mem d) s

/-- `NOT_MEM(B, C, D)`: `mem[D] := (~mem[mem[B] + C]) & WORD_MASK` (spec/42_execute_instructions.md R144). -/
def execNotMem (b c d : Int) (s : State) : Host.Outcome State Fault Refusal :=
  commit (writeValue (complemented (readIndirect s.mem b c)) s.mem d) s

end Sys2Proof.Machine
end

