-- ==== Sys2Proof/Machine/Dispatch.lean ====
section
/-! DEFINITION. The dispatch over exactly four variants (spec/42_execute_instructions.md R140). -/

namespace Sys2Proof.Machine

def exec (i : Instr) (s : State) : Host.Outcome State Fault Refusal :=
  match i with
  | .loadConst b c => Sys2Proof.Machine.execLoadConst b c s
  | .readMem b c d => Sys2Proof.Machine.execReadMem b c d s
  | .writeMem b c => Sys2Proof.Machine.execWriteMem b c s
  | .notMem b c d => Sys2Proof.Machine.execNotMem b c d s

end Sys2Proof.Machine
end

