-- ==== Sys2Proof/Machine/Engine.lean ====
section
/-! DEFINITION. The engine's step: the test before every instruction, the fetch, the dispatch by mnemonic, the effect and
the increments (spec/43_engine_harness.md R162, R163). -/

namespace Sys2Proof.Machine

/-- The step on a fetched Machine Instruction: dispatch by its mnemonic, effect, increments (R163). A mnemonic outside
the four raises UnsupportedInstructionError (R152 (a), R189); a missing field is refused (R152 (d), log 8). -/
def runFetched (mi : MachineInstruction) (s : State) : Host.Outcome State Fault Refusal :=
  match mi.dispatch with
  | .ok i => retire (exec i s)
  | .error (.unsupported m) => raise (.unsupportedInstruction m) s
  | .error (.missingField m f) => .refused (.missingField m f)

/-- One step (R162 to R164): in a terminal state it stops under that state's name. The last arm is never taken, since
`pc` is in bounds whenever no terminal state holds. -/
def engineStep (s : State) : Host.Outcome State Fault Refusal :=
  match terminalFault s with
  | some f => .fault f
  | none =>
    match fetch s with
    | some mi => runFetched mi s
    | none => .fault .halted

end Sys2Proof.Machine
end

