-- ==== Sys2Proof/Machine/Step.lean ====
section
/-! DEFINITION. The machine's step and the host's way of placing one instruction where it fetches. -/

namespace Sys2Proof.Machine

/-- One step of the engine (spec/43_engine_harness.md R163). -/
def step (s : State) : Host.Outcome State Fault Refusal := engineStep s

/-- `s` with the instruction word of the low `nbits` bits of `w` loaded where `step` fetches next. A word that does not
decode is not loaded: `load` fails and `s` stays as it is (R130; log 4). -/
def State.withFetchWord (s : State) (nbits w : Nat) : State :=
  match decodeWord (tableWord nbits w) with
  | .ok mi => withFetched mi s
  | .error _ => s

end Sys2Proof.Machine
end

