-- ==== Sys2Proof/Machine/Harness.lean ====
section
/-! DEFINITION. The host's transactions over the step: `run`, `run_from` and the canonical chain
(spec/43_engine_harness.md R160, R165, R172, R175; log 21). -/

namespace Sys2Proof.Machine

/-- What a run that has ended delivers: the Execution Result and the Memory, or the error and nothing else
(R165, R181, R196). -/
def deliver (s : State) : RunOutcome :=
  match s.error with
  | some e => .err e
  | none => .ok (executionResult s) s.mem

/-- The loop of R165 with at most `n` steps: a step while one is enabled. -/
def runLoop : Nat → State → RunOutcome
  | 0, s => deliver s
  | n + 1, s =>
    match step s with
    | .next t => runLoop n t
    | .fault _ => deliver s
    | .refused r => .refused r

/-- `run_from(program, max_steps, mem0)` (R172). Every run ends within `len(program)` steps (R169). -/
def runFrom (program : List MachineInstruction) (maxSteps : Option Nat) (mem0 : Memory) : RunOutcome :=
  runLoop program.length (startOver program maxSteps mem0)

/-- `run(program, max_steps)`: from the all-zero Memory (R160, R165). -/
def run (program : List MachineInstruction) (maxSteps : Option Nat) : RunOutcome := runFrom program maxSteps []

/-- How the canonical chain of R175 ends: with the Execution Result and the dump, at the stage that failed, or with a
refusal of the model. Where the run ended Ok and `dump` then fails, the run's result is kept beside the error
(spec/60_exceptions.md R187); that the chain's outcome holds both is a DESIGN CHOICE, log 22. -/
inductive ChainOutcome where
  | ok (result : ExecutionResult) (dumped : List (Nat × Word))
  | err (e : LocatedError)
  | dumpFailed (result : ExecutionResult) (e : MachineError)
  | refused (r : Refusal)
  deriving DecidableEq, Repr

/-- The read-out after a run (R171): a failed run delivers no Memory to dump (R196). A failed dump does not take the run's
result back (R187; log 22). -/
def dumpOf (o : RunOutcome) (first last : Int) : ChainOutcome :=
  match o with
  | .ok r m =>
    match memDump m first last with
    | .ok d => .ok r d
    | .error e => .dumpFailed r e
  | .err e => .err { error := e, position := none }
  | .refused r => .refused r

/-- `load`, `run`, `dump` on a blob (R175). -/
def runBlob (b : List Byte) (maxSteps : Option Nat) (first last : Int) : ChainOutcome :=
  match load b with
  | .error e => .err e
  | .ok p => dumpOf (run p maxSteps) first last

/-- `ir`, `encode_program`, `blob`, `load`, `run`, `dump`: a failure at any stage ends the chain there (R175). -/
def runProgram (ir : List InstructionIR) (maxSteps : Option Nat) (first last : Int) : ChainOutcome :=
  match assemble ir with
  | .error e => .err e
  | .ok b => runBlob b maxSteps first last

end Sys2Proof.Machine
end

