-- ==== Sys2Proof/Safety.lean ====
section
/-! DEFINITION. The terms in which claims about the machine are stated: what an effect leaves alone, what a loaded
program is, the engine's invariants, and what a safe run is. -/

namespace Sys2Proof.Machine

/-- Every piece of state but Memory is as before: what no instruction touches (spec/42_execute_instructions.md R153). -/
structure SameBesideMem (s t : State) : Prop where
  pc : t.pc = s.pc
  steps : t.steps = s.steps
  budget : t.budget = s.budget
  program : t.program = s.program
  error : t.error = s.error

/-- From `s` to `t` the word at `a` becomes `v` and nothing else changes: no other word of Memory and no other piece of
state. -/
structure StoresOnly (s t : State) (a : Nat) (v : Word) : Prop where
  stored : t.mem.word a = v
  others : ∀ x, x ≠ a → t.mem.word x = s.mem.word x
  beside : SameBesideMem s t

/-- Every Machine Instruction of the program store is what DEC yields for its raw word: the program came out of `load`
(spec/43_engine_harness.md R160; spec/30_encoding.md R78). -/
def Loaded (s : State) : Prop := ∀ mi ∈ s.program, decodeWord mi.raw = .ok mi

/-- What holds of the engine in every state of every run, hand-built programs included. -/
structure Inv (s : State) : Prop where
  /-- Memory is in its canonical form (log 2). -/
  mem : s.mem.wf = true
  /-- `steps = pc` (spec/10_state.md R23). -/
  counters : s.steps = s.pc
  /-- `pc <= len(program)` (R21). -/
  bound : s.pc ≤ s.program.length
  /-- No step is taken once `steps >= budget` (R24). -/
  cap : ∀ b, s.budget = some b → s.steps ≤ b
  /-- In Faulted, `pc` designates the faulting instruction (spec/60_exceptions.md R194). -/
  precise : s.error ≠ none → inBounds s = true ∧ budgetAllows s = true

/-- No address that a field cannot name holds a value: instructions write to direct addresses only, and those are 32
bits wide (spec/20_memory.md R50). -/
def HighMemoryZero (s : State) : Prop := ∀ a, 2 ^ Config.addressBits ≤ a → s.mem.word a = 0

/-- A fresh Memory after a sequence of direct writes (spec/20_memory.md R44, R57). -/
def writesToFresh (ws : List (Nat × Word)) : Memory := ws.foldl (fun m c => Memory.put m c.1 c.2) []

/-- The effect of one Machine Instruction alone, as `exec` gives it (spec/42_execute_instructions.md R140). -/
def effectOn (s : State) (mi : MachineInstruction) : State :=
  match mi.dispatch with
  | .error _ => s
  | .ok i =>
    match exec i s with
    | .next t => t
    | .fault _ => s
    | .refused _ => s

/-- The Memory after the effects of `mis`, in order, from the all-zero Memory (spec/43_engine_harness.md R166). -/
def foldMem (mis : List MachineInstruction) : Memory := (mis.foldl effectOn (startOver mis none [])).mem

/-- The number of steps a loaded program of `len` instructions takes: `min(len, max_steps)`
(spec/43_engine_harness.md R166). -/
def runLength (len : Nat) : Option Nat → Nat
  | none => len
  | some b => min len b

/-- A safe run ends in Halted or Suspended-by-budget: it delivers a result (spec/60_exceptions.md R196, R204). -/
def SafeRun (program : List MachineInstruction) (maxSteps : Option Nat) : Prop :=
  ∃ r m, run program maxSteps = .ok r m

/-- `n` steps one after the other, where each answers a next state. -/
def stepsTo : Nat → State → State → Prop
  | 0, s, t => s = t
  | n + 1, s, t => ∃ u, step s = .next u ∧ stepsTo n u t

end Sys2Proof.Machine
end

