-- ==== Sys2Proof/Certificates/Slice0/Obligations.lean ====
section
/-! DEFINITION. The statements for the provers, one definition each. ENC and DEC are stated over every SCHEMA that meets
the invariants of spec/30_encoding.md R72 and R73 wherever the rule is; a statement that rests on a decision of the spec
or on a choice of the model says so and names the log entry. -/

open Sys2Proof Sys2Proof.Machine

/-! ### The decoder and the encoder -/

/-- Words written out from the formats of R75 decode to what they stand for: V-ENC rows 6, 7, 13 and 17, and V-DEC row 8
with unused bits set. The numbers are decisions D1 and D2 (log 10). -/
def Obligations.WordsOfTheFormatsDecode : Prop :=
  decodeTableWord 112 0x0002468ACF1BD5B7DDF95FDE01A1 = some (.loadConst 0xDEADBEEFCAFEF00D 0x12345678) ∧
  decodeTableWord 112 0x0000000000000280006000000142 = some (.readMem 10 3 20) ∧
  decodeTableWord 112 0x000000000000000002A000000283 = some (.writeMem 20 21) ∧
  decodeTableWord 112 0x0000000000000280006000000144 = some (.notMem 10 3 20) ∧
  decodeTableWord 112 0x800000000020000002A000000283 = some (.writeMem 20 21)

/-- Every well-formed instruction encodes, and its word and its 14 bytes decode to it, every operand at every value its
field admits. Over the default SCHEMA: decisions D1 and D2 (log 10). -/
def Obligations.DecodeEncodeAgree : Prop :=
  ∀ i : Instr, i.wellFormed = true →
    ∃ w, encode i = .ok w ∧ decodeInstr w = .ok i ∧ decodeBytes (bytesOf w) = .ok i

/-- R108, for every well-formed Instruction Definition: where the keys are the declared names and every value is in
range, `encode` succeeds and `extract` gives the same field mapping back. -/
def Obligations.ExtractUndoesEncode : Prop :=
  ∀ (d : InstructionDefinition) (values : FieldMap), d.wellFormed = true →
    (∀ n, values.lookup n ≠ none → n ∈ d.names) →
    (∀ f ∈ d.orderedFields, ∃ v, values.lookup f.name = some v ∧ 0 ≤ v ∧ v ≤ (f.mask : Int)) →
    ∃ w, d.encode values = .ok w ∧ ∀ n, (d.extract w).lookup n = values.lookup n

/-- R125, for every well-formed SCHEMA: the word of a successful `encode` decodes to the same definition and the same
field mapping, with that word as `raw`. -/
def Obligations.DecodeOfEncodedWord : Prop :=
  ∀ (S : Schema) (d : InstructionDefinition) (values : FieldMap) (w : InstrWord), S.wellFormed = true → d ∈ S →
    d.encode values = .ok w →
    ∃ mi, decodeWordIn S w = .ok mi ∧ mi.definition = d ∧ mi.raw = w ∧
      ∀ n, mi.fields.lookup n = values.lookup n

/-- R129 and R87 (derived in the spec): encoding what a word decoded to gives its canonical form, which is the word
itself exactly when every bit that is neither opcode nor field is 0. -/
def Obligations.EncodeOfDecodedWordIsCanonical : Prop :=
  ∀ (S : Schema) (w : InstrWord) (mi : MachineInstruction), S.wellFormed = true → decodeWordIn S w = .ok mi →
    mi.definition.encode mi.fields = .ok (mi.definition.canon w) ∧
    (mi.definition.canon w = w ↔
      ∀ j, 5 ≤ j → (∀ f ∈ mi.definition.orderedFields, ¬ (f.startBit ≤ j ∧ j ≤ f.endBit)) → w.toNat.testBit j = false)

/-- R79 (b) (derived in the spec): two words that agree on the opcode and on the fields of the decoded instruction decode
alike but for `raw`. -/
def Obligations.UnusedBitsAreIgnored : Prop :=
  ∀ (S : Schema) (w w' : InstrWord) (mi : MachineInstruction), S.wellFormed = true → decodeWordIn S w = .ok mi →
    (∀ j, (j < 5 ∨ ∃ f ∈ mi.definition.orderedFields, f.startBit ≤ j ∧ j ≤ f.endBit) →
      w'.toNat.testBit j = w.toNat.testBit j) →
    decodeWordIn S w' = .ok { mi with raw := w' }

/-- R124: `decode_word` fails only in the opcode lookup and only with UnknownOpcodeError; no field value and no unused
bit can make it fail. -/
def Obligations.DecodeFailsOnlyInTheOpcodeLookup : Prop :=
  ∀ (S : Schema) (w : InstrWord),
    ((∃ d ∈ S, d.opcode = w.toNat % 32) → ∃ mi, decodeWordIn S w = .ok mi ∧ mi.definition ∈ S ∧
      mi.definition.opcode = w.toNat % 32) ∧
    ((∀ d ∈ S, d.opcode ≠ w.toNat % 32) → ∃ op, decodeWordIn S w = .error (.unknownOpcode op)) ∧
    ∀ e, decodeWordIn S w = .error e → ∃ op, e = .unknownOpcode op

/-- R122: `extract` gives exactly the declared names, each with `(word >> start_bit) & mask`, a natural number in
range, for any word and any definition. -/
def Obligations.ExtractIsTotalAndInRange : Prop :=
  ∀ (d : InstructionDefinition) (w : InstrWord),
    (d.extract w).map Prod.fst = d.names ∧
    ∀ f ∈ d.orderedFields, d.names.Nodup →
      ∃ v : Nat, (d.extract w).lookup f.name = some (v : Int) ∧ v = (w.toNat >>> f.startBit) &&& f.mask ∧ v ≤ f.mask

/-- R80: a word serialises to 14 bytes, byte `i` being `(w >> 8i) & 0xFF`, high zero bytes included. -/
def Obligations.WordsSerialiseLittleEndian : Prop :=
  ∀ w : InstrWord, (bytesOf w).length = 14 ∧
    ∀ i, i < 14 → ∃ b, (bytesOf w)[i]? = some b ∧ b.toNat = (w.toNat >>> (8 * i)) &&& 0xFF

/-- R81 (derived in the spec): serialisation and deserialisation are inverse bijections. -/
def Obligations.SerialisationIsABijection : Prop :=
  (∀ w : InstrWord, wordOf (bytesOf w) = w) ∧ ∀ b : List Byte, b.length = 14 → bytesOf (wordOf b) = b

/-- R107 (derived in the spec): the low five bits of an encoded word are the opcode, every bit outside opcode and fields
is 0, and the word is canonical. -/
def Obligations.EncodedWordsAreCanonical : Prop :=
  ∀ (d : InstructionDefinition) (values : FieldMap) (w : InstrWord), d.wellFormed = true →
    d.encode values = .ok w →
    w.toNat % 32 = d.opcode ∧ d.canon w = w ∧
    ∀ j, 5 ≤ j → (∀ f ∈ d.orderedFields, ¬ (f.startBit ≤ j ∧ j ≤ f.endBit)) → w.toNat.testBit j = false

/-- R109 (derived in the spec): a word determines the definition and the field mapping it was encoded from. -/
def Obligations.EncodeIsInjective : Prop :=
  ∀ (S : Schema) (d d' : InstructionDefinition) (values values' : FieldMap) (w : InstrWord), S.wellFormed = true →
    d ∈ S → d' ∈ S → d.encode values = .ok w → d'.encode values' = .ok w →
    d = d' ∧ ∀ n, values.lookup n = values'.lookup n

/-- R102: `encode` raises SchemaError exactly when the keys are not the declared names, and the error names exactly the
missing and the extra ones. That it comes before the range check is decision D9 (log 14). -/
def Obligations.SchemaErrorExactlyOnKeyMismatch : Prop :=
  ∀ (d : InstructionDefinition) (values : FieldMap),
    ((∃ missing extra, d.encode values = .error (.schemaError missing extra)) ↔
      ¬ ∀ n, n ∈ d.names ↔ values.lookup n ≠ none) ∧
    ∀ missing extra, d.encode values = .error (.schemaError missing extra) →
      (∀ n, n ∈ missing ↔ n ∈ d.names ∧ values.lookup n = none) ∧
      ∀ n, n ∈ extra ↔ values.lookup n ≠ none ∧ n ∉ d.names

/-- R103: where the keys are the declared names, `encode` succeeds exactly when every value is in range; a RangeError
names a field, its width and its value, out of range, and every field before it is in range (the first in
`ordered_fields` order: decision D9, log 14). -/
def Obligations.RangeErrorNamesTheFirstBadField : Prop :=
  ∀ (d : InstructionDefinition) (values : FieldMap), (∀ n, n ∈ d.names ↔ values.lookup n ≠ none) →
    ((∃ w, d.encode values = .ok w) ↔
      ∀ f ∈ d.orderedFields, ∃ v, values.lookup f.name = some v ∧ 0 ≤ v ∧ v ≤ (f.mask : Int)) ∧
    ∀ e, d.encode values = .error e →
      ∃ before f after v, d.orderedFields = before ++ f :: after ∧ values.lookup f.name = some v ∧
        e = .rangeError f.name f.width v ∧ (v < 0 ∨ (f.mask : Int) < v) ∧
        ∀ g ∈ before, ∃ u, values.lookup g.name = some u ∧ 0 ≤ u ∧ u ≤ (g.mask : Int)

/-- R101: the 26 ASCII letters are folded to upper case and nothing else is altered, and the lookup answers the
definition whose mnemonic is the folded string. The alphabet is decision D7 (log 13). -/
def Obligations.MnemonicLookupFoldsAsciiCase : Prop :=
  (∀ c : Char, 'a' ≤ c → c ≤ 'z' → (upperChar c).toNat = c.toNat - 32) ∧
  (∀ c : Char, ¬ ('a' ≤ c ∧ c ≤ 'z') → upperChar c = c) ∧
  (∀ m : String, (upper m).toList = m.toList.map upperChar ∧ upper (upper m) = upper m) ∧
  ∀ (S : Schema) (m : String), S.wellFormed = true →
    (∀ d, lookupMnemonicIn S m = .ok d ↔ d ∈ S ∧ d.mnemonic = upper m) ∧
    ((∀ d ∈ S, d.mnemonic ≠ upper m) → lookupMnemonicIn S m = .error (.unknownMnemonic m))

/-- R106: `encode_program` gives one word per instruction, in order, or the error of the first failing instruction with
its position. Positions from 0 and no partial output are decision D10 (log 14). -/
def Obligations.EncodeProgramStopsAtTheFirstFailure : Prop :=
  ∀ (S : Schema) (irs : List InstructionIR),
    (∀ ws : List InstrWord, encodeProgramIn S irs = .ok ws ↔ irs.map (encodeIRIn S) = ws.map Except.ok) ∧
    ∀ e, encodeProgramIn S irs = .error e ↔
      ∃ before ir after, ∃ ws : List InstrWord, irs = before ++ ir :: after ∧ before.map (encodeIRIn S) = ws.map Except.ok ∧
        encodeIRIn S ir = .error e.error ∧ e.position = some before.length

/-- R110: ENC's outcome is a function of its input and SCHEMA, and it can raise exactly three errors. -/
def Obligations.EncoderRaisesExactlyThreeErrors : Prop :=
  (∀ (S : Schema) (irs : List InstructionIR) (e : LocatedError), encodeProgramIn S irs = .error e →
    (∃ m, e.error = .unknownMnemonic m) ∨ (∃ a b, e.error = .schemaError a b) ∨
      ∃ f w v, e.error = .rangeError f w v) ∧
  (∃ irs e m, encodeProgram irs = .error e ∧ e.error = .unknownMnemonic m) ∧
  (∃ irs e a b, encodeProgram irs = .error e ∧ e.error = .schemaError a b) ∧
  ∃ irs e f w v, encodeProgram irs = .error e ∧ e.error = .rangeError f w v

/-! ### The loader -/

/-- R188: MalformedBinaryError is raised by `load` exactly when the blob's length is no multiple of 14; nothing else
about the blob as a whole can be wrong. -/
def Obligations.MalformedBinaryExactlyOnBadLength : Prop :=
  ∀ (S : Schema) (b : List Byte),
    ((∃ n at_, loadIn S b = .error { error := .malformedBinary n, position := at_ }) ↔ b.length % 14 ≠ 0) ∧
    ∀ e, loadIn S b = .error e → b.length % 14 = 0 → ∃ op, e.error = .unknownOpcode op

/-- R126 and R127: the length first, then the chunks in ascending order; success gives `program[k]` decoded from bytes
`14k .. 14k+13`, and a failure is that of the first failing chunk with its index: UnknownOpcodeError of the low five bits of
that chunk's word (R121, R180). The order and the payload are decision D11 (log 14). -/
def Obligations.LoadDecodesChunksInOrder : Prop :=
  ∀ (S : Schema) (b : List Byte),
    (b.length % 14 ≠ 0 → loadIn S b = .error { error := .malformedBinary b.length, position := none }) ∧
    (b.length % 14 = 0 →
      (∀ p, loadIn S b = .ok p ↔ p.length = b.length / 14 ∧
        ∀ (k : Nat) (mi : MachineInstruction), p[k]? = some mi → decodeWordIn S (wordOf ((b.drop (14 * k)).take 14)) = .ok mi) ∧
      ∀ e, loadIn S b = .error e ↔ ∃ k, k < b.length / 14 ∧ e.position = some k ∧
        decodeWordIn S (wordOf ((b.drop (14 * k)).take 14)) = .error e.error ∧
        e.error = .unknownOpcode ((wordOf ((b.drop (14 * k)).take 14)).toNat % 32) ∧
        ∀ j, j < k → ∃ mi, decodeWordIn S (wordOf ((b.drop (14 * j)).take 14)) = .ok mi)

/-- R131 (derived in the spec): whatever `encode_program` accepts loads, instruction by instruction, with the definition
its mnemonic names, the field mapping it was given and the word it was encoded to. -/
def Obligations.EncodedProgramsLoad : Prop :=
  ∀ (S : Schema) (irs : List InstructionIR) (ws : List InstrWord), S.wellFormed = true →
    encodeProgramIn S irs = .ok ws →
    ∃ p, loadIn S (blob ws) = .ok p ∧ p.length = irs.length ∧
      ∀ (k : Nat) (ir : InstructionIR), irs[k]? = some ir → ∃ mi, p[k]? = some mi ∧ lookupMnemonicIn S ir.mnemonic = .ok mi.definition ∧
        ws[k]? = some mi.raw ∧ ∀ n, mi.fields.lookup n = ir.fields.lookup n

/-- R130 (b): `load` writes the program store and touches neither Memory nor `pc` nor `steps`; what it writes is the
output of DEC. -/
def Obligations.LoadWritesTheProgramStoreOnly : Prop :=
  ∀ (b : List Byte) (s t : State), loadInto b s = .ok t →
    load b = .ok t.program ∧ Loaded t ∧ t.pc = s.pc ∧ t.steps = s.steps ∧ t.budget = s.budget ∧ t.mem = s.mem ∧
      t.error = s.error

/-! ### Memory -/

/-- R43: `read` demands a natural address and never fails on one, and an address that no write named reads as 0, after
any sequence of writes to a fresh Memory. -/
def Obligations.NeverWrittenAddressesReadZero : Prop :=
  (∀ (m : Memory) (a : Int), a < 0 → memRead m a = .error (.invalidAddress a)) ∧
  ∀ (writes : List (Nat × Word)) (a : Nat), a ∉ writes.map Prod.fst →
    memRead (writesToFresh writes) a = .ok 0

/-- R45: a write of any natural value is no error; the word read back is the value modulo 2^64, and every other address
reads as before. -/
def Obligations.WritesReduceTheirValue : Prop :=
  ∀ (m : Memory) (a v : Nat), m.wf = true →
    ∃ m', memWrite m a v = .ok m' ∧ m'.wf = true ∧
      (∃ w, memRead m' a = .ok w ∧ w.toNat = v % 2 ^ 64) ∧
      ∀ x : Nat, x ≠ a → memRead m' x = memRead m x

/-- A negative value is masked to its two's-complement bits, `v mod 2^64`: general knowledge of the spec (G1, log 16),
in `write` and in a hand-built `LOAD_CONST`. -/
def Obligations.NegativeValuesMaskToTwosComplement : Prop :=
  ∀ (s : State) (a v : Int), s.mem.wf = true → 0 ≤ a → v < 0 →
    ∃ m', memWrite s.mem a v = .ok m' ∧ (((m'.word a.toNat).toNat : Int) = v % 2 ^ 64) ∧
      exec (.loadConst v a) s = .next { s with mem := m' }

/-- A write at a negative address fails and leaves no Memory behind (R44, R186). -/
def Obligations.WritesRefuseNegativeAddresses : Prop :=
  ∀ (m : Memory) (a v : Int), (a < 0 ↔ memWrite m a v = .error (.invalidAddress a)) ∧
    (0 ≤ a ↔ ∃ m', memWrite m a v = .ok m')

/-- R31 with decisions D13 and D14: the set of written addresses is not state. Two sequences of writes to a fresh Memory
that leave the same words leave the same data, whatever they wrote in between and wherever they wrote 0 (log 2). -/
def Obligations.MemoryIsItsContents : Prop :=
  ∀ ws ws' : List (Nat × Word),
    (∀ a, (writesToFresh ws).word a = (writesToFresh ws').word a) → writesToFresh ws = writesToFresh ws'

/-- R46: `dump` gives one pair for every address of the closed range, ascending, or InvalidRangeError. That addresses
never written are listed is decision D13 (log 12). -/
def Obligations.DumpListsEveryAddressOfTheRange : Prop :=
  ∀ (m : Memory) (first last : Int),
    (0 ≤ first → first ≤ last → ∃ l, memDump m first last = .ok l ∧ (l.length : Int) = last - first + 1 ∧
      ∀ (k : Nat) (c : Nat × Word), l[k]? = some c → (c.1 : Int) = first + k ∧ c.2 = m.word c.1) ∧
    (¬ (0 ≤ first ∧ first ≤ last) → memDump m first last = .error (.invalidRange first last))

/-! ### The four instructions -/

/-- R141: `LOAD_CONST` completes at every natural address and stores its constant there, modulo 2^64, and changes
nothing else. (A negative hand-built constant: log 16.) -/
def Obligations.LoadConstStoresItsConstant : Prop :=
  ∀ (b c : Int) (s : State), s.mem.wf = true → 0 ≤ c →
    ∃ t v, exec (.loadConst b c) s = .next t ∧ StoresOnly s t c.toNat v ∧ (v.toNat : Int) = b % 2 ^ 64

/-- R142: `READ_MEM` completes wherever its addresses are natural numbers and stores `mem[mem[B] + C]`, read from the
Memory before the instruction, at `D`, and changes nothing else. The sum is exact, without wrap: decision D18 (log 11).
That a negative hand-built offset (R152) completes where the sum is a natural number is DEDUCED (log 19). -/
def Obligations.ReadMemLoadsThroughThePointer : Prop :=
  ∀ (b c d : Int) (s : State), s.mem.wf = true → 0 ≤ b → 0 ≤ ((s.mem.word b.toNat).toNat : Int) + c → 0 ≤ d →
    ∃ t, exec (.readMem b c d) s = .next t ∧
      StoresOnly s t d.toNat (s.mem.word (((s.mem.word b.toNat).toNat : Int) + c).toNat)

/-- R143: `WRITE_MEM` completes at natural addresses and copies the word at `B` to `C`, with no indirection, and changes
nothing else. -/
def Obligations.WriteMemCopiesDirectly : Prop :=
  ∀ (b c : Int) (s : State), s.mem.wf = true → 0 ≤ b → 0 ≤ c →
    ∃ t, exec (.writeMem b c) s = .next t ∧ StoresOnly s t c.toNat (s.mem.word b.toNat)

/-- R144: `NOT_MEM` completes wherever its addresses are natural numbers and stores `2^64 - 1 - v` at `D`, where `v` is
`mem[mem[B] + C]` before the instruction, and changes nothing else. The sum is exact, without wrap: decision D18
(log 11). That a negative hand-built offset (R152) completes where the sum is a natural number is DEDUCED (log 19). -/
def Obligations.NotMemStoresTheComplement : Prop :=
  ∀ (b c d : Int) (s : State), s.mem.wf = true → 0 ≤ b → 0 ≤ ((s.mem.word b.toNat).toNat : Int) + c → 0 ≤ d →
    ∃ t v, exec (.notMem b c d) s = .next t ∧ StoresOnly s t d.toNat v ∧
      v.toNat = 2 ^ 64 - 1 - (s.mem.word (((s.mem.word b.toNat).toNat : Int) + c).toNat).toNat

/-- R145: one level of indirection. Where `mem[B] + C` is below 2^64, `READ_MEM` and `NOT_MEM` read the cell
`mem[mem[B] + C]`, and `D` is a direct address. (Sums from 2^64 up: the two statements before this one.) -/
def Obligations.OneLevelOfIndirection : Prop :=
  ∀ (b c d : Nat) (s : State), s.mem.wf = true → (s.mem.word b).toNat + c < 2 ^ 64 →
    (∃ t, exec (.readMem b c d) s = .next t ∧ t.mem.word d = s.mem.word ((s.mem.word b).toNat + c)) ∧
    ∃ t, exec (.notMem b c d) s = .next t ∧ t.mem.word d = ~~~ s.mem.word ((s.mem.word b).toNat + c)

/-- R152 (b): a negative address ends the instruction with InvalidAddressError of the first failing access, in the order
of R58, and nothing else changes. Recording it in State is the model's choice (log 6; D15); an offset is negative only
through its sum (log 19). -/
def Obligations.NegativeAddressesRaiseInvalidAddress : Prop :=
  ∀ (b c d : Int) (s : State),
    (c < 0 → exec (.loadConst b c) s = .next { s with error := some (.invalidAddress c) }) ∧
    (b < 0 → exec (.writeMem b c) s = .next { s with error := some (.invalidAddress b) }) ∧
    (0 ≤ b → c < 0 → exec (.writeMem b c) s = .next { s with error := some (.invalidAddress c) }) ∧
    ∀ ea : Int, ea = ((s.mem.word b.toNat).toNat : Int) + c →
      (b < 0 → exec (.readMem b c d) s = .next { s with error := some (.invalidAddress b) } ∧
        exec (.notMem b c d) s = .next { s with error := some (.invalidAddress b) }) ∧
      (0 ≤ b → ea < 0 → exec (.readMem b c d) s = .next { s with error := some (.invalidAddress ea) } ∧
        exec (.notMem b c d) s = .next { s with error := some (.invalidAddress ea) }) ∧
      (0 ≤ b → 0 ≤ ea → d < 0 → exec (.readMem b c d) s = .next { s with error := some (.invalidAddress d) } ∧
        exec (.notMem b c d) s = .next { s with error := some (.invalidAddress d) })

/-- R147 and R153 (derived in the spec), the frame of all four: every instruction answers a next state, in which every
cell but its destination, and every piece of state that is no part of Memory, is as before; an error leaves Memory
whole. That an error is a next state, with Memory kept in it, is the model's choice (log 6; D15). -/
def Obligations.InstructionsChangeAtMostTheirDestination : Prop :=
  ∀ (i : Instr) (s : State), s.mem.wf = true →
    ∃ t, exec i s = .next t ∧ t.mem.wf = true ∧
      (∀ a : Nat, (a : Int) ≠ destination i → t.mem.word a = s.mem.word a) ∧
      t.pc = s.pc ∧ t.steps = s.steps ∧ t.budget = s.budget ∧ t.program = s.program ∧
      (t.error = s.error ∨ t.mem = s.mem)

/-- R151 (derived in the spec): what DEC yields dispatches to a well-formed instruction, which no state can make raise an
error. -/
def Obligations.DecodedInstructionsRaiseNoError : Prop :=
  ∀ (w : InstrWord) (mi : MachineInstruction), decodeWord w = .ok mi →
    ∃ i, mi.dispatch = .ok i ∧ decodeInstr w = .ok i ∧ i.wellFormed = true ∧
      ∀ s : State, ∃ t, exec i s = .next t ∧ t.error = s.error

/-- R144 and R146 (b): `NOT_MEM` applied twice in place restores the machine, where the cell is not the pointer cell.
The cell's address may lie at or above 2^64, without wrap (decision D18, log 11), and may be reached by a negative
hand-built offset (R152; DEDUCED, log 19). -/
def Obligations.ComplementTwiceInPlaceRestores : Prop :=
  ∀ (b c d : Int) (s : State), s.mem.wf = true → 0 ≤ b → 0 ≤ d → d = ((s.mem.word b.toNat).toNat : Int) + c → d ≠ b →
    ∃ t, exec (.notMem b c d) s = .next t ∧ exec (.notMem b c d) t = .next s

/-! ### The engine -/

/-- A step runs the instruction that the loaded bytes at `pc` decode to: `exec` and then both counters advance by 1
(R163; loading from a blob: R126). -/
def Obligations.StepRunsTheDecodedInstruction : Prop :=
  ∀ (b : List Byte) (s : State) (i : Instr), load b = .ok s.program → s.error = none → s.pc < s.program.length →
    (∀ n, s.budget = some n → s.steps < n) → decodeBytes ((b.drop (14 * s.pc)).take 14) = .ok i →
    ∃ t, exec i s = .next t ∧ step s = .next { t with pc := s.pc + 1, steps := s.steps + 1 }

/-- The same for any Machine Instruction of the program store, hand-built ones included: without an error both counters
advance, with one nothing but the recorded error changes (R163; the second half is decision D15, log 6). -/
def Obligations.StepRunsTheFetchedInstruction : Prop :=
  ∀ (s t : State) (mi : MachineInstruction) (i : Instr), enabled s = true → s.program[s.pc]? = some mi →
    mi.dispatch = .ok i → exec i s = .next t →
    (t.error = none → step s = .next { t with pc := s.pc + 1, steps := s.steps + 1 }) ∧
    (t.error ≠ none → step s = .next t)

/-- The host's way of placing a word runs exactly the instruction it decodes to (log 4). -/
def Obligations.PlacedWordRunsNext : Prop :=
  ∀ (s : State) (w : Nat) (i : Instr), decodeTableWord 112 w = some i →
    ∃ t, exec i (s.withFetchWord 112 w) = .next t ∧ step (s.withFetchWord 112 w) = .next (advance t)

/-- R162: the step is enabled exactly when no error is recorded, `pc` is within bounds and a set budget is not reached;
where it is not enabled no step is taken, and where it is one is, unless the fetched instruction is hand-built and lacks a
field: that such a step is refused, by its mnemonic and the field, is the model's choice (U6, log 8). -/
def Obligations.StepEnabledExactlyWhenRunning : Prop :=
  ∀ s : State,
    (runState s = .running ↔ s.error = none ∧ s.pc < s.program.length ∧ (s.budget = none ∨ ∃ b, s.budget = some b ∧ s.steps < b)) ∧
    (runState s ≠ .running → ∀ t, step s ≠ .next t) ∧
    (runState s = .running → (∃ t, step s = .next t) ∨
      ∃ mi f, s.program[s.pc]? = some mi ∧ mi.fields.lookup f = none ∧
        step s = .refused (.missingField mi.definition.mnemonic f))

/-- R164: when no step is enabled, the run is Faulted if an error is recorded; otherwise Halted if `pc` is at or past the
end, tested first, and Suspended-by-budget else, the budget being a number reached before the end. -/
def Obligations.RunsEndHaltedOrSuspended : Prop :=
  ∀ s : State, runState s ≠ .running →
    (s.error ≠ none → runState s = .faulted) ∧
    (s.error = none → s.program.length ≤ s.pc → runState s = .halted) ∧
    (s.error = none → s.pc < s.program.length →
      runState s = .suspendedByBudget ∧ ∃ b, s.budget = some b ∧ b ≤ s.steps)

/-- `step` names the terminal state it stops in: the model's own convention (log 5), with R196 for Faulted. -/
def Obligations.TerminalStatesStopByName : Prop :=
  ∀ s : State, (step s = .fault .halted ↔ runState s = .halted) ∧
    (step s = .fault .suspendedByBudget ↔ runState s = .suspendedByBudget) ∧
    ∀ e, step s = .fault (.faulted e) ↔ s.error = some e

/-- R161 and R211: the state at the start of a run, whatever the state before it, and its run state. -/
def Obligations.StartOfRunResets : Prop :=
  ∀ (n : Option Nat) (s : State),
    (startRun n s).pc = 0 ∧ (startRun n s).steps = 0 ∧ (∀ a, (startRun n s).mem.word a = 0) ∧
    (startRun n s).budget = n ∧ (startRun n s).error = none ∧ (startRun n s).program = s.program ∧
    runState (startRun n s) =
      if s.program.length = 0 then .halted else if n = some 0 then .suspendedByBudget else .running

/-- The invariants hold at the start of every run and in `State.reset` (whose empty program and unset budget are the
model's choice, log 3). -/
def Obligations.InvariantsHoldAtReset : Prop :=
  Inv State.reset ∧ ∀ (n : Option Nat) (s : State), Inv (startRun n s)

/-- Every step keeps the invariants: canonical Memory, `steps = pc` (R23), `pc <= len(program)` (R21), the cap (R24) and
the precision of an error (R194). -/
def Obligations.StepKeepsTheInvariants : Prop :=
  ∀ s t : State, Inv s → step s = .next t → Inv t

/-- A loaded program takes a step in every Running state, stays loaded, and records no error: Faulted is unreachable for
it (R151, R196, derived in the spec). -/
def Obligations.LoadedProgramsNeverFault : Prop :=
  ∀ s : State, Loaded s → s.error = none →
    (runState s = .running → ∃ t, step s = .next t) ∧
    ∀ t, step s = .next t → Loaded t ∧ t.error = none ∧ t.program = s.program

/-- A loaded program leaves every address from 2^32 up at 0, for its instructions write to direct addresses only (R50);
the 32 bits are decision D2 (log 10). -/
def Obligations.HighMemoryStaysZero : Prop :=
  ∀ s t : State, Loaded s → s.mem.wf = true → HighMemoryZero s → step s = .next t → HighMemoryZero t

/-- R148: there is no control transfer. No instruction changes `pc`; whatever instruction a step executes, the next is the
one at the next index, and the program store and the budget stay as they are; and `j` instructions executed from the start
of a run are those at indices 0 to `j - 1`, each once, in order. -/
def Obligations.EveryInstructionIsFollowedByTheNext : Prop :=
  (∀ (i : Instr) (s t : State), exec i s = .next t → t.pc = s.pc) ∧
  (∀ s t : State, step s = .next t → t.error = none →
    t.pc = s.pc + 1 ∧ t.steps = s.steps + 1 ∧ t.program = s.program ∧ t.budget = s.budget) ∧
  ∀ (p : List MachineInstruction) (n : Option Nat) (m : Memory) (j : Nat) (t : State),
    stepsTo j (startOver p n m) t → t.error = none →
    t.pc = j ∧ j ≤ p.length ∧ ∀ k, k < j → ∃ u mi, stepsTo k (startOver p n m) u ∧ u.pc = k ∧ fetch u = some mi ∧ p[k]? = some mi

/-- R194 (derived in the spec): an error is precise. Nothing but the recorded error changes, so `pc` and `steps` still
designate the faulting instruction, and no further step is taken (log 6). -/
def Obligations.ErrorsArePrecise : Prop :=
  ∀ (s t : State) (e : MachineError), step s = .next t → t.error = some e →
    t = { s with error := some e } ∧ step t = .fault (.faulted e)

/-- R189: a mnemonic outside the four, which only a hand-built Machine Instruction can have, is a fatal
UnsupportedInstructionError and is never skipped. In every enabled state, whatever ran before, the step that fetches it
records that error and changes nothing else (R152 (a), R163; that an error is recorded in State is the model's choice,
log 6, with D15); a run that reaches it delivers that error. From `load` followed by `run` it is unreachable. -/
def Obligations.UnsupportedMnemonicIsFatal : Prop :=
  (∀ (s : State) (mi : MachineInstruction), enabled s = true → s.program[s.pc]? = some mi →
    mi.definition.mnemonic ∉ ["LOAD_CONST", "READ_MEM", "WRITE_MEM", "NOT_MEM"] →
    step s = .next { s with error := some (.unsupportedInstruction mi.definition.mnemonic) }) ∧
  (∀ (before after : List MachineInstruction) (mi : MachineInstruction) (n : Option Nat),
    (∀ x ∈ before, decodeWord x.raw = .ok x) →
    mi.definition.mnemonic ∉ ["LOAD_CONST", "READ_MEM", "WRITE_MEM", "NOT_MEM"] →
    (∀ b, n = some b → before.length < b) →
    run (before ++ mi :: after) n = .err (.unsupportedInstruction mi.definition.mnemonic)) ∧
  ∀ (b : List Byte) (p : List MachineInstruction) (n : Option Nat) (m : String), load b = .ok p →
    run p n ≠ .err (.unsupportedInstruction m)

/-- U6: a hand-built Machine Instruction whose mapping lacks a field its effect reads is refused under the first missing
name, and one with every field it reads is not, whatever else it carries. The refusal and its order are the model's choice
(log 8). -/
def Obligations.MissingFieldIsRefused : Prop :=
  ∀ (s : State) (mi : MachineInstruction) (names : List String), enabled s = true → s.program[s.pc]? = some mi →
    (mi.definition.mnemonic, names) ∈ Schema.sourceNames →
    ((∃ f ∈ names, mi.fields.lookup f = none) ↔
      ∃ present f rest, names = present ++ f :: rest ∧ (∀ g ∈ present, mi.fields.lookup g ≠ none) ∧
        mi.fields.lookup f = none ∧ step s = .refused (.missingField mi.definition.mnemonic f)) ∧
    ((∀ f ∈ names, mi.fields.lookup f ≠ none) ↔ ∃ t, step s = .next t)

/-- R166 (derived in the spec), the closed form of a run: a loaded program executes its first `min(n, max_steps)`
instructions, each once and in order, from the all-zero Memory. -/
def Obligations.RunClosedForm : Prop :=
  ∀ (p : List MachineInstruction) (n : Option Nat), (∀ mi ∈ p, decodeWord mi.raw = .ok mi) →
    run p n = .ok { stepsExecuted := runLength p.length n, halted := decide (p.length ≤ runLength p.length n) }
      (foldMem (p.take (runLength p.length n)))

/-- R33: `halted = true` means that `pc` ran past the program's end, `halted = false` that the budget was reached before
it; for every program whose run delivers a result. -/
def Obligations.ExecutionResultMeansWhatItSays : Prop :=
  ∀ (p : List MachineInstruction) (n : Option Nat) (r : ExecutionResult) (m : Memory), run p n = .ok r m →
    (r.halted = true ↔ r.stepsExecuted = p.length) ∧ (r.halted = false → n = some r.stepsExecuted) ∧
    r.stepsExecuted ≤ p.length ∧ ∀ b, n = some b → r.stepsExecuted ≤ b

/-- R168 (derived in the spec): a run with a smaller budget is an exact prefix of a run with a larger budget or none,
from any Memory. -/
def Obligations.SmallerBudgetsRunAPrefix : Prop :=
  ∀ (p : List MachineInstruction) (m : Memory) (k j : Nat) (n : Option Nat) (t : State), j ≤ k →
    (∀ b, n = some b → k ≤ b) → stepsTo j (startOver p (some k) m) t →
    stepsTo j (startOver p n m) { t with budget := n }

/-- R169 (derived in the spec): no run takes more than `len(program)` steps, budget or no budget. -/
def Obligations.RunsTakeAtMostTheProgramsLength : Prop :=
  ∀ (p : List MachineInstruction) (n : Option Nat) (m : Memory) (j : Nat) (t : State),
    stepsTo j (startOver p n m) t → j ≤ p.length

/-- R190 (derived in the spec): a run can end with two of the eight errors and no other. -/
def Obligations.RunsRaiseOnlyTwoErrors : Prop :=
  ∀ (p : List MachineInstruction) (n : Option Nat) (m : Memory) (e : MachineError), runFrom p n m = .err e →
    (∃ a, a < 0 ∧ e = .invalidAddress a) ∨ ∃ x, e = .unsupportedInstruction x

/-- The canonical chain (R175): what `encode_program` accepts runs to a result and a dump, with the step count of R166;
what it rejects ends the chain with its error. The dump is that of the Memory the run delivers (R171, R46), as R166 gives it;
that it lists every address of the range is decision D13 (log 12). -/
def Obligations.EncodedProgramsRunEndToEnd : Prop :=
  ∀ (irs : List InstructionIR) (n : Option Nat) (first last : Int), 0 ≤ first → first ≤ last →
    (∀ ws, encodeProgram irs = .ok ws → ∃ p l, load (blob ws) = .ok p ∧ p.length = irs.length ∧
      (l.length : Int) = last - first + 1 ∧
      (∀ (k : Nat) (c : Nat × Word), l[k]? = some c →
        (c.1 : Int) = first + k ∧ c.2 = (foldMem (p.take (runLength irs.length n))).word c.1) ∧
      runProgram irs n first last =
        .ok { stepsExecuted := runLength irs.length n, halted := decide (irs.length ≤ runLength irs.length n) } l) ∧
    ∀ e, encodeProgram irs = .error e → runProgram irs n first last = .err e

/-- The canonical chain (R175) with bounds that `dump` rejects: what `encode_program` accepts runs to the result of R166 and
ends at the dump with InvalidRangeError, which does not affect that result (R187); what it rejects ends the chain before
that. That the chain's outcome holds the result beside the error is the model's choice (log 22). -/
def Obligations.InvalidDumpRangeKeepsTheResult : Prop :=
  ∀ (irs : List InstructionIR) (n : Option Nat) (first last : Int), ¬ (0 ≤ first ∧ first ≤ last) →
    (∀ ws, encodeProgram irs = .ok ws →
      runProgram irs n first last =
        .dumpFailed { stepsExecuted := runLength irs.length n, halted := decide (irs.length ≤ runLength irs.length n) }
          (.invalidRange first last)) ∧
    ∀ e, encodeProgram irs = .error e → runProgram irs n first last = .err e
end

