-- ==== Sys2Proof/Laws/Encoding.lean ====
section
/-! SUPPORT. Bits of packed and extracted words, the well-formed table, and the serialisation
(spec/30_encoding.md R72, R80, R81; spec/40_schema_encoder.md R104; spec/41_decoder_loader.md R122). -/

namespace Sys2Proof

/-! ### Bits -/

theorem fitsField_iff (bits : Nat) (v : Int) : fitsField bits v = true ↔ 0 ≤ v ∧ v.toNat < 2 ^ bits := by
  have := Nat.two_pow_pos bits
  simp only [fitsField, Bool.and_eq_true, decide_eq_true_eq]
  omega

/-- `j` is a bit of the field. -/
def FieldDefinition.covers (f : FieldDefinition) (j : Nat) : Bool := decide (f.startBit ≤ j) && decide (j ≤ f.endBit)

theorem FieldDefinition.wellFormed_iff (f : FieldDefinition) :
    f.wellFormed = true ↔ 5 ≤ f.startBit ∧ f.startBit ≤ f.endBit ∧ f.endBit < 112 := by
  simp only [FieldDefinition.wellFormed, Bool.and_eq_true, decide_eq_true_eq, and_assoc]
  exact Iff.rfl

theorem FieldDefinition.disjoint_iff (f g : FieldDefinition) :
    f.disjoint g = true ↔ f.endBit < g.startBit ∨ g.endBit < f.startBit := by
  simp [FieldDefinition.disjoint]

theorem opcodeMask_testBit (j : Nat) : Config.opcodeMask.testBit j = decide (j < 5) := by
  rw [show Config.opcodeMask = 2 ^ 5 - 1 from rfl, Nat.testBit_two_pow_sub_one]

theorem FieldDefinition.mask_testBit (f : FieldDefinition) (j : Nat) : f.mask.testBit j = decide (j < f.width) :=
  Nat.testBit_two_pow_sub_one ..

theorem FieldDefinition.shiftedMask_testBit {f : FieldDefinition} (h : f.startBit ≤ f.endBit) (j : Nat) :
    (f.mask <<< f.startBit).testBit j = f.covers j := by
  rw [Nat.testBit_shiftLeft, FieldDefinition.mask_testBit, FieldDefinition.width, FieldDefinition.covers]
  by_cases hj : f.startBit ≤ j
  · simp [hj]; omega
  · simp [hj]

/-- Bit `j` of a field's value is bit `start + j` of the word. -/
theorem FieldDefinition.extract_testBit (f : FieldDefinition) (w : InstrWord) (j : Nat) :
    (f.extract w).testBit j = (decide (j < f.width) && w.toNat.testBit (f.startBit + j)) := by
  rw [FieldDefinition.extract, Nat.testBit_and, Nat.testBit_shiftRight, FieldDefinition.mask_testBit, Bool.and_comm]

theorem FieldDefinition.extract_lt (f : FieldDefinition) (w : InstrWord) : f.extract w < 2 ^ f.width := by
  have := Nat.and_le_right (n := w.toNat >>> f.startBit) (m := f.mask)
  have := Nat.two_pow_pos f.width
  rw [FieldDefinition.extract]
  unfold FieldDefinition.mask at *
  omega

/-- What an extracted value is: in range (R122). -/
theorem FieldDefinition.extract_fits (f : FieldDefinition) (w : InstrWord) :
    fitsField f.width (f.extract w : Int) = true := by
  rw [fitsField_iff]
  exact ⟨Int.natCast_nonneg _, f.extract_lt w⟩

theorem opcodeOf_testBit (w : InstrWord) (j : Nat) :
    (opcodeOf w).testBit j = (decide (j < 5) && w.toNat.testBit j) := by
  rw [opcodeOf, Nat.testBit_and, opcodeMask_testBit, Bool.and_comm]

theorem testBit_eq_false_of_lt {x n j : Nat} (h : x < 2 ^ n) (hj : n ≤ j) : x.testBit j = false :=
  Nat.testBit_lt_two_pow (h.trans_le (Nat.pow_le_pow_right (by decide) hj))

/-! ### Packing -/

theorem packOnto_testBit (values : FieldMap) (fs : List FieldDefinition) (acc j : Nat) :
    (packOnto values acc fs).testBit j =
      (acc.testBit j || fs.any fun f => ((f.supplied values).toNat <<< f.startBit).testBit j) := by
  induction fs generalizing acc with
  | nil => simp [packOnto]
  | cons f fs ih =>
    have := ih (acc ||| (f.supplied values).toNat <<< f.startBit)
    rw [packOnto] at this ⊢
    rw [List.foldl_cons, this, Nat.testBit_or, List.any_cons, Bool.or_assoc]

/-- A value in range has no bit outside its field. -/
theorem FieldDefinition.shifted_testBit {f : FieldDefinition} (hf : f.startBit ≤ f.endBit) {values : FieldMap}
    (h : f.inRange values = true) (j : Nat) :
    ((f.supplied values).toNat <<< f.startBit).testBit j =
      (f.covers j && (f.supplied values).toNat.testBit (j - f.startBit)) := by
  have hlt := ((fitsField_iff ..).1 h).2
  rw [Nat.testBit_shiftLeft, FieldDefinition.covers]
  by_cases h1 : f.startBit ≤ j
  · by_cases h2 : j ≤ f.endBit
    · simp [h1, h2]
    · rw [testBit_eq_false_of_lt hlt (by rw [FieldDefinition.width]; omega)]
      simp
  · simp [h1]

/-- The facts that a well-formed Instruction Definition holds (R71 to R73). -/
structure InstructionDefinition.Sound (d : InstructionDefinition) : Prop where
  opcode : d.opcode < 2 ^ 5
  fields : ∀ f ∈ d.orderedFields, 5 ≤ f.startBit ∧ f.startBit ≤ f.endBit ∧ f.endBit < 112
  disjoint : d.orderedFields.Pairwise fun f g => f.endBit < g.startBit ∨ g.endBit < f.startBit
  names : d.names.Nodup

theorem InstructionDefinition.sound {d : InstructionDefinition} (h : d.wellFormed = true) : d.Sound := by
  simp only [InstructionDefinition.wellFormed, Bool.and_eq_true, decide_eq_true_eq, List.all_eq_true,
    FieldDefinition.wellFormed_iff, FieldDefinition.disjoint_iff] at h
  obtain ⟨⟨⟨ho, hf⟩, hp⟩, hn⟩ := h
  exact ⟨by have : Config.opcodeMask = 31 := rfl; omega, hf, hp, hn⟩

/-- No two fields of a sound definition cover one bit, and none covers a bit of the opcode. -/
theorem InstructionDefinition.Sound.covers_unique {d : InstructionDefinition} (h : d.Sound) {f g : FieldDefinition}
    (hf : f ∈ d.orderedFields) (hg : g ∈ d.orderedFields) {j : Nat} (hfj : f.covers j = true)
    (hgj : g.covers j = true) : f = g := by
  by_contra hne
  have symm : Std.Symm fun f g : FieldDefinition => f.endBit < g.startBit ∨ g.endBit < f.startBit :=
    ⟨fun _ _ => Or.symm⟩
  have : f.endBit < g.startBit ∨ g.endBit < f.startBit := h.disjoint.forall hf hg hne
  simp [FieldDefinition.covers] at hfj hgj
  omega

/-- Every declared field's supplied value is in range. -/
def InstructionDefinition.AllInRange (d : InstructionDefinition) (values : FieldMap) : Prop :=
  ∀ f ∈ d.orderedFields, f.inRange values = true

section pack
variable {d : InstructionDefinition} (h : d.Sound) {values : FieldMap} (hv : d.AllInRange values)
include h hv

theorem InstructionDefinition.packOnto_bits (j : Nat) :
    (packOnto values d.opcode d.orderedFields).testBit j =
      (d.opcode.testBit j || d.orderedFields.any fun f =>
        f.covers j && (f.supplied values).toNat.testBit (j - f.startBit)) := by
  rw [packOnto_testBit]
  congr 1
  rw [Bool.eq_iff_iff, List.any_eq_true, List.any_eq_true]
  refine exists_congr fun f => and_congr_right fun hf => ?_
  rw [FieldDefinition.shifted_testBit (h.fields f hf).2.1 (hv f hf)]

/-- A packed word needs no more than 112 bits (R104). -/
theorem InstructionDefinition.packOnto_lt : packOnto values d.opcode d.orderedFields < 2 ^ 112 := by
  refine Nat.lt_pow_two_of_testBit _ fun j hj => ?_
  rw [InstructionDefinition.packOnto_bits h hv, testBit_eq_false_of_lt h.opcode (by omega), Bool.false_or,
    List.any_eq_false]
  intro f hf
  have := h.fields f hf
  simp [FieldDefinition.covers]
  omega

theorem InstructionDefinition.pack_toNat : (d.pack values).toNat = packOnto values d.opcode d.orderedFields := by
  rw [InstructionDefinition.pack, BitVec.toNat_ofNat, Nat.mod_eq_of_lt (InstructionDefinition.packOnto_lt h hv)]

/-- The packed word's bits: the opcode's and each field's value (R104). -/
theorem InstructionDefinition.pack_testBit (j : Nat) :
    (d.pack values).toNat.testBit j =
      (d.opcode.testBit j || d.orderedFields.any fun f =>
        f.covers j && (f.supplied values).toNat.testBit (j - f.startBit)) := by
  rw [InstructionDefinition.pack_toNat h hv, InstructionDefinition.packOnto_bits h hv]

/-- The packed word's low five bits are the opcode (R104, R107). -/
theorem InstructionDefinition.opcodeOf_pack : opcodeOf (d.pack values) = d.opcode := by
  refine Nat.eq_of_testBit_eq fun j => ?_
  rw [opcodeOf_testBit, InstructionDefinition.pack_testBit h hv]
  by_cases hj : j < 5
  · have : (d.orderedFields.any fun f => f.covers j && (f.supplied values).toNat.testBit (j - f.startBit)) = false := by
      rw [List.any_eq_false]
      intro f hf
      have := h.fields f hf
      simp [FieldDefinition.covers]
      omega
    rw [this]
    simp [hj]
  · rw [testBit_eq_false_of_lt h.opcode (by omega)]
    simp [hj]

/-- Each field reads back from the packed word (R104, R108). -/
theorem InstructionDefinition.extract_pack {f : FieldDefinition} (hf : f ∈ d.orderedFields) :
    (f.extract (d.pack values) : Int) = f.supplied values := by
  have hr := (fitsField_iff ..).1 (hv f hf)
  have hb := h.fields f hf
  have : f.extract (d.pack values) = (f.supplied values).toNat := by
    refine Nat.eq_of_testBit_eq fun j => ?_
    rw [FieldDefinition.extract_testBit, InstructionDefinition.pack_testBit h hv]
    by_cases hj : j < f.width
    · have hc : f.covers (f.startBit + j) = true := by
        simp [FieldDefinition.covers]
        rw [FieldDefinition.width] at hj
        omega
      rw [testBit_eq_false_of_lt h.opcode (by omega), Bool.false_or, decide_eq_true hj, Bool.true_and,
        Bool.eq_iff_iff, List.any_eq_true]
      constructor
      · rintro ⟨g, hg, hgj⟩
        rw [Bool.and_eq_true] at hgj
        obtain rfl := h.covers_unique hf hg hc hgj.1
        simpa using hgj.2
      · intro hbit
        exact ⟨f, hf, by rw [hc, Bool.true_and]; simpa using hbit⟩
    · rw [testBit_eq_false_of_lt hr.2 (by omega)]
      simp [hj]
  omega

end pack

/-! ### Lookup in field maps -/

theorem lookup_map_of_nodup {fs : List FieldDefinition} (value : FieldDefinition → Int)
    (hn : (fs.map (·.name)).Nodup) {f : FieldDefinition} (hf : f ∈ fs) :
    (fs.map fun f => (f.name, value f)).lookup f.name = some (value f) := by
  induction fs with
  | nil => cases hf
  | cons g fs ih =>
    rw [List.map_cons, List.nodup_cons] at hn
    rw [List.map_cons, List.lookup_cons]
    rcases List.mem_cons.1 hf with rfl | hf
    · simp
    · have : f.name ≠ g.name := fun e => hn.1 (e ▸ List.mem_map_of_mem hf)
      rw [beq_eq_false_iff_ne.2 this]
      exact ih hn.2 hf

theorem lookup_isSome_iff (m : FieldMap) (n : String) : (m.lookup n).isSome = true ↔ n ∈ m.map Prod.fst := by
  induction m with
  | nil => simp
  | cons c m ih =>
    obtain ⟨k, v⟩ := c
    rw [List.lookup_cons, List.map_cons, List.mem_cons]
    by_cases h : n = k
    · simp [h]
    · rw [beq_eq_false_iff_ne.2 h]
      simp only [ih, h, false_or]

theorem lookup_eq_none_iff (m : FieldMap) (n : String) : m.lookup n = none ↔ n ∉ m.map Prod.fst := by
  rw [← lookup_isSome_iff]
  cases m.lookup n <;> simp

/-! ### `encode` -/

theorem mem_insertName (n m : String) (l : List String) : m ∈ insertName n l ↔ m = n ∨ m ∈ l := by
  induction l with
  | nil => simp [insertName]
  | cons k l ih =>
    rw [insertName]
    split
    · rw [List.mem_cons, ih, List.mem_cons]; tauto
    · rw [List.mem_cons]

/-- Sorting loses and invents no name. -/
theorem mem_sortNames (m : String) (l : List String) : m ∈ sortNames l ↔ m ∈ l := by
  induction l with
  | nil => simp [sortNames]
  | cons k l ih => rw [sortNames, mem_insertName, ih, List.mem_cons]

theorem InstructionDefinition.mem_missing (d : InstructionDefinition) (values : FieldMap) (n : String) :
    n ∈ d.missing values ↔ n ∈ d.names ∧ n ∉ values.map Prod.fst := by
  rw [InstructionDefinition.missing, List.mem_filter, Option.isNone_iff_eq_none, lookup_eq_none_iff]

theorem InstructionDefinition.mem_extra (d : InstructionDefinition) (values : FieldMap) (n : String) :
    n ∈ d.extra values ↔ n ∈ values.map Prod.fst ∧ n ∉ d.names := by
  rw [InstructionDefinition.extra, mem_sortNames, List.mem_filter]
  simp

/-- The schema check passes exactly when the keys are the declared names (R102). -/
theorem InstructionDefinition.checkSchema_ok (d : InstructionDefinition) (values : FieldMap) :
    d.checkSchema values = .ok () ↔ ∀ n, n ∈ d.names ↔ n ∈ values.map Prod.fst := by
  have key : (d.missing values = [] ∧ d.extra values = []) ↔ ∀ n, n ∈ d.names ↔ n ∈ values.map Prod.fst := by
    rw [List.eq_nil_iff_forall_not_mem, List.eq_nil_iff_forall_not_mem]
    simp only [InstructionDefinition.mem_missing, InstructionDefinition.mem_extra]
    exact ⟨fun hh n => ⟨fun a => by_contra fun b => hh.1 n ⟨a, b⟩, fun a => by_contra fun b => hh.2 n ⟨a, b⟩⟩,
      fun h => ⟨fun n a => a.2 ((h n).1 a.1), fun n a => a.2 ((h n).2 a.1)⟩⟩
  rw [InstructionDefinition.checkSchema, ← key]
  split
  · next h => exact ⟨fun _ => h, fun _ => rfl⟩
  · next h => exact ⟨fun e => (by cases e), fun e => absurd e h⟩

/-- The range check passes exactly when every field is in range (R103). -/
theorem InstructionDefinition.checkRange_ok (d : InstructionDefinition) (values : FieldMap) :
    d.checkRange values = .ok () ↔ d.AllInRange values := by
  rw [InstructionDefinition.checkRange, InstructionDefinition.AllInRange]
  split
  · next h =>
    rw [List.find?_eq_none] at h
    simpa using h
  · next f h =>
    have h1 := List.mem_of_find?_eq_some h
    have h2 := List.find?_some h
    refine ⟨fun e => (by cases e), fun e => ?_⟩
    rw [e f h1] at h2
    cases h2

/-- All `encode` can do on success (R105). -/
theorem InstructionDefinition.encode_ok (d : InstructionDefinition) (values : FieldMap) (w : InstrWord) :
    d.encode values = .ok w ↔
      (∀ n, n ∈ d.names ↔ n ∈ values.map Prod.fst) ∧ d.AllInRange values ∧ w = d.pack values := by
  rw [← InstructionDefinition.checkSchema_ok, ← InstructionDefinition.checkRange_ok, InstructionDefinition.encode]
  cases h1 : d.checkSchema values with
  | error e => simp
  | ok u =>
    cases h2 : d.checkRange values with
    | error e => simp
    | ok u' => simp [eq_comm]

/-- The value a field supplies is the one its name is mapped to, where the keys are the declared names. -/
theorem FieldDefinition.lookup_supplied {d : InstructionDefinition} {values : FieldMap}
    (hk : ∀ n, n ∈ d.names ↔ n ∈ values.map Prod.fst) {f : FieldDefinition} (hf : f ∈ d.orderedFields) :
    values.lookup f.name = some (f.supplied values) := by
  have : (values.lookup f.name).isSome = true :=
    (lookup_isSome_iff ..).2 ((hk _).1 (List.mem_map_of_mem hf))
  rw [FieldDefinition.supplied]
  obtain ⟨v, hv⟩ := Option.isSome_iff_exists.1 this
  rw [hv]
  rfl

/-! ### Canonical words -/

theorem InstructionDefinition.usedMask_testBit {d : InstructionDefinition} (h : d.Sound) (j : Nat) :
    d.usedMask.testBit j = (decide (j < 5) || d.orderedFields.any fun f => f.covers j) := by
  have : ∀ (fs : List FieldDefinition) (acc : Nat), (∀ f ∈ fs, f.startBit ≤ f.endBit) →
      (fs.foldl (fun m f => m ||| f.mask <<< f.startBit) acc).testBit j =
        (acc.testBit j || fs.any fun f => f.covers j) := by
    intro fs
    induction fs with
    | nil => simp
    | cons f fs ih =>
      intro acc hb
      rw [List.foldl_cons, ih _ fun g hg => hb g (List.mem_cons_of_mem _ hg), Nat.testBit_or,
        FieldDefinition.shiftedMask_testBit (hb f List.mem_cons_self), List.any_cons, Bool.or_assoc]
  rw [InstructionDefinition.usedMask, this _ _ fun f hf => (h.fields f hf).2.1, opcodeMask_testBit]

theorem InstructionDefinition.canon_testBit {d : InstructionDefinition} (h : d.Sound) (w : InstrWord) (j : Nat) :
    (d.canon w).toNat.testBit j =
      (w.toNat.testBit j && (decide (j < 5) || d.orderedFields.any fun f => f.covers j)) := by
  rw [InstructionDefinition.canon, BitVec.toNat_and, BitVec.toNat_ofNat, Nat.testBit_and, Nat.testBit_mod_two_pow,
    InstructionDefinition.usedMask_testBit h]
  by_cases hj : j < 112
  · simp [hj]
  · rw [testBit_eq_false_of_lt w.isLt (by omega)]
    simp

/-! ### Serialisation -/

theorem littleEndian_append (a b : List Byte) :
    littleEndian (a ++ b) = littleEndian a + 256 ^ a.length * littleEndian b := by
  induction a with
  | nil => simp [littleEndian]
  | cons x a ih =>
    rw [List.cons_append, littleEndian, ih, littleEndian, List.length_cons, Nat.pow_succ]
    ring

/-- The first `n` bytes of a word hold its value modulo `256^n`. -/
theorem littleEndian_bytes (w : InstrWord) (n : Nat) :
    littleEndian ((List.range n).map fun i => w.extractLsb' (8 * i) 8) = w.toNat % 256 ^ n := by
  induction n with
  | zero => simp [littleEndian, Nat.mod_one]
  | succ n ih =>
    rw [List.range_succ, List.map_append, littleEndian_append, ih, List.length_map, List.length_range, Nat.mod_pow_succ]
    simp only [List.map_cons, List.map_nil, littleEndian, BitVec.extractLsb'_toNat, Nat.shiftRight_eq_div_pow,
      Nat.pow_mul, Nat.mul_zero, Nat.add_zero]

/-- `word(bytes(w)) = w` (R81). -/
theorem wordOf_bytesOf (w : InstrWord) : wordOf (bytesOf w) = w := by
  rw [wordOf, bytesOf, littleEndian_bytes]
  apply BitVec.eq_of_toNat_eq
  rw [BitVec.toNat_ofNat, show Config.instrBytes = 14 from rfl]
  have := w.isLt
  rw [Nat.mod_eq_of_lt (a := w.toNat) (by simpa using this), Nat.mod_eq_of_lt this]

@[simp] theorem bytesOf_length (w : InstrWord) : (bytesOf w).length = 14 := by
  rw [bytesOf, List.length_map, List.length_range]
  rfl

@[simp] theorem blob_length (ws : List InstrWord) : (blob ws).length = 14 * ws.length := by
  induction ws with
  | nil => rfl
  | cons w ws ih =>
    rw [blob, List.flatMap_cons, List.length_append, bytesOf_length, ← blob, ih, List.length_cons]
    omega

/-- The chunks of a blob are the bytes of its words (R82). -/
theorem chunks_blob (ws : List InstrWord) : chunks ws.length (blob ws) = ws.map bytesOf := by
  induction ws with
  | nil => rfl
  | cons w ws ih =>
    have hl : (bytesOf w).length = Config.instrBytes := bytesOf_length w
    rw [blob, List.flatMap_cons, ← blob, List.length_cons, chunks, List.take_left' hl, List.drop_left' hl, ih,
      List.map_cons]

end Sys2Proof
end

