-- ==== Sys2Proof/Laws/PerInstr.lean ====
section
/-! SUPPORT. Laws made per instruction. -/

namespace Sys2Proof.Laws

/-- The row of SCHEMA that an instruction belongs to: found by its mnemonic, declaring exactly its operands, with the
field widths its well-formedness asks for (spec/30_encoding.md R74). -/
def DefinitionFits.Statement (i : Instr) : Prop :=
  ∃ d ∈ schema, lookupMnemonicIn schema i.mnemonic = .ok d ∧ d.mnemonic = i.mnemonic ∧
    d.names = i.fieldMap.map Prod.fst ∧ (i.wellFormed = true ↔ d.AllInRange i.fieldMap) ∧
    ({ definition := d, fields := i.fieldMap, raw := 0 } : MachineInstruction).dispatch = .ok i

/-- Each row of the table is the one its own mnemonic finds. -/
theorem lookup_row : ∀ n : Fin 4, lookupMnemonicIn schema schema[n].mnemonic = .ok schema[n] := by decide

theorem DefinitionFits.of_row (n : Fin 4) (i : Instr) (hm : schema[n].mnemonic = i.mnemonic)
    (hn : schema[n].names = i.fieldMap.map Prod.fst) (hw : i.wellFormed = true ↔ schema[n].AllInRange i.fieldMap)
    (hd : ({ definition := schema[n], fields := i.fieldMap, raw := 0 } : MachineInstruction).dispatch = .ok i) :
    DefinitionFits.Statement i := ⟨_, List.getElem_mem _, hm ▸ lookup_row n, hm, hn, hw, hd⟩

theorem DefinitionFits.loadConst (b c : Int) : DefinitionFits.Statement (.loadConst b c) := by
  refine of_row 0 _ rfl rfl ?_ rfl
  simp [Instr.wellFormed, InstructionDefinition.AllInRange, schema, FieldDefinition.inRange, FieldDefinition.width,
    FieldDefinition.supplied, Instr.fieldMap, List.lookup, Config.constantBits, Config.addressBits]

theorem DefinitionFits.readMem (b c d : Int) : DefinitionFits.Statement (.readMem b c d) := by
  refine of_row 1 _ rfl rfl ?_ rfl
  simp [Instr.wellFormed, InstructionDefinition.AllInRange, schema, FieldDefinition.inRange, FieldDefinition.width,
    FieldDefinition.supplied, Instr.fieldMap, List.lookup, Config.offsetBits, Config.addressBits, and_assoc]

theorem DefinitionFits.writeMem (b c : Int) : DefinitionFits.Statement (.writeMem b c) := by
  refine of_row 2 _ rfl rfl ?_ rfl
  simp [Instr.wellFormed, InstructionDefinition.AllInRange, schema, FieldDefinition.inRange, FieldDefinition.width,
    FieldDefinition.supplied, Instr.fieldMap, List.lookup, Config.addressBits]

theorem DefinitionFits.notMem (b c d : Int) : DefinitionFits.Statement (.notMem b c d) := by
  refine of_row 3 _ rfl rfl ?_ rfl
  simp [Instr.wellFormed, InstructionDefinition.AllInRange, schema, FieldDefinition.inRange, FieldDefinition.width,
    FieldDefinition.supplied, Instr.fieldMap, List.lookup, Config.offsetBits, Config.addressBits, and_assoc]

end Sys2Proof.Laws
end

