-- ==== Sys2Proof/Laws/State.lean ====
section
/-! SUPPORT. One lemma per field per named update of the state, each true by definition. -/

namespace Sys2Proof.Machine

section advance
variable (s : State)

@[simp] theorem advance_pc : (advance s).pc = s.pc + 1 := rfl
@[simp] theorem advance_steps : (advance s).steps = s.steps + 1 := rfl
@[simp] theorem advance_budget : (advance s).budget = s.budget := rfl
@[simp] theorem advance_program : (advance s).program = s.program := rfl
@[simp] theorem advance_mem : (advance s).mem = s.mem := rfl
@[simp] theorem advance_error : (advance s).error = s.error := rfl

end advance

section startOver
variable (p : List MachineInstruction) (n : Option Nat) (m : Memory)

@[simp] theorem startOver_pc : (startOver p n m).pc = 0 := rfl
@[simp] theorem startOver_steps : (startOver p n m).steps = 0 := rfl
@[simp] theorem startOver_budget : (startOver p n m).budget = n := rfl
@[simp] theorem startOver_program : (startOver p n m).program = p := rfl
@[simp] theorem startOver_mem : (startOver p n m).mem = m := rfl
@[simp] theorem startOver_error : (startOver p n m).error = none := rfl

end startOver

section startRun
variable (n : Option Nat) (s : State)

@[simp] theorem startRun_pc : (startRun n s).pc = 0 := rfl
@[simp] theorem startRun_steps : (startRun n s).steps = 0 := rfl
@[simp] theorem startRun_budget : (startRun n s).budget = n := rfl
@[simp] theorem startRun_program : (startRun n s).program = s.program := rfl
@[simp] theorem startRun_mem : (startRun n s).mem = [] := rfl
@[simp] theorem startRun_error : (startRun n s).error = none := rfl

end startRun

section withFetched
variable (mi : MachineInstruction) (s : State)

@[simp] theorem withFetched_pc : (withFetched mi s).pc = s.pc := rfl
@[simp] theorem withFetched_steps : (withFetched mi s).steps = s.steps := rfl
@[simp] theorem withFetched_budget : (withFetched mi s).budget = openBudget s := rfl
@[simp] theorem withFetched_program : (withFetched mi s).program = placeAt s.pc mi s.program := rfl
@[simp] theorem withFetched_mem : (withFetched mi s).mem = s.mem := rfl
@[simp] theorem withFetched_error : (withFetched mi s).error = none := rfl

end withFetched

/-- The placed instruction is the one the fetch reads. -/
theorem placeAt_getElem (n : Nat) (mi : MachineInstruction) (p : List MachineInstruction) :
    (placeAt n mi p)[n]? = some mi := by
  induction n generalizing p with
  | zero => cases p <;> simp [placeAt]
  | succ n ih => cases p <;> simp [placeAt, ih]

theorem fetch_withFetched (mi : MachineInstruction) (s : State) : fetch (withFetched mi s) = some mi :=
  placeAt_getElem s.pc mi s.program

end Sys2Proof.Machine
end

