-- ==== Sys2Proof/Laws/Memory.lean ====
section
/-! SUPPORT. The laws of Memory: read after write, the canonical form, and equality by contents
(spec/20_memory.md R41, R43, R44, R46). -/

namespace Sys2Proof.Machine

namespace Memory

@[simp] theorem word_nil (a : Nat) : Memory.word [] a = 0 := rfl

theorem word_cons (k : Nat) (x : Word) (m : Memory) (a : Nat) :
    Memory.word ((k, x) :: m) a = if k = a then x else Memory.word m a := rfl

theorem wfFrom_cons (lo k : Nat) (x : Word) (m : Memory) :
    wfFrom lo ((k, x) :: m) = true ↔ lo ≤ k ∧ x ≠ 0 ∧ wfFrom (k + 1) m = true := by
  simp only [wfFrom, Bool.and_eq_true, decide_eq_true_eq, and_assoc]
  exact Iff.rfl

/-- A lower starting bound asks for less. -/
theorem wfFrom_mono {lo lo' : Nat} (h : lo' ≤ lo) {m : Memory} (hm : wfFrom lo m = true) : wfFrom lo' m = true := by
  cases m with
  | nil => rfl
  | cons c m =>
    obtain ⟨k, x⟩ := c
    rw [wfFrom_cons] at hm ⊢
    exact ⟨h.trans hm.1, hm.2⟩

/-- Below the bound of a canonical Memory every address reads as unwritten. -/
theorem word_below {lo : Nat} {m : Memory} (hm : wfFrom lo m = true) {a : Nat} (ha : a < lo) : m.word a = 0 := by
  induction m generalizing lo with
  | nil => rfl
  | cons c m ih =>
    obtain ⟨k, x⟩ := c
    rw [wfFrom_cons] at hm
    rw [word_cons, if_neg (by omega)]
    exact ih hm.2.2 (by omega)

/-- `cell` puts `x` at `a` in front of cells above `a`. -/
theorem word_cell {a : Nat} {m : Memory} (hm : wfFrom (a + 1) m = true) (x : Word) (b : Nat) :
    Memory.word (cell a x m) b = if b = a then x else m.word b := by
  by_cases hx : x = 0
  · rw [cell, if_pos (by simpa [Config.unwritten] using hx)]
    split
    · subst b; rw [word_below hm (Nat.lt_succ_self a), hx]
    · rfl
  · rw [cell, if_neg (by simpa [Config.unwritten] using hx), word_cons]
    simp only [eq_comm]

theorem wfFrom_cell {lo a : Nat} {m : Memory} (ha : lo ≤ a) (hm : wfFrom (a + 1) m = true) (x : Word) :
    wfFrom lo (cell a x m) = true := by
  by_cases hx : x = 0
  · rw [cell, if_pos (by simpa [Config.unwritten] using hx)]
    exact wfFrom_mono (by omega) hm
  · rw [cell, if_neg (by simpa [Config.unwritten] using hx), wfFrom_cons]
    exact ⟨ha, hx, hm⟩

theorem wfFrom_put {lo : Nat} {m : Memory} (hm : wfFrom lo m = true) {a : Nat} (ha : lo ≤ a) (x : Word) :
    wfFrom lo (m.put a x) = true := by
  induction m generalizing lo with
  | nil => exact wfFrom_cell ha rfl x
  | cons c m ih =>
    obtain ⟨k, y⟩ := c
    have hc := (wfFrom_cons ..).1 hm
    unfold put
    split
    · exact (wfFrom_cons ..).2 ⟨hc.1, hc.2.1, ih hc.2.2 (by omega)⟩
    · split
      · subst k; exact wfFrom_cell ha hc.2.2 x
      · exact wfFrom_cell ha ((wfFrom_cons ..).2 ⟨by omega, hc.2⟩) x

/-- Every write keeps the canonical form. -/
theorem wf_put {m : Memory} (hm : m.wf = true) (a : Nat) (x : Word) : (m.put a x).wf = true :=
  wfFrom_put hm (Nat.zero_le a) x

theorem word_put_of_wfFrom {lo : Nat} {m : Memory} (hm : wfFrom lo m = true) (a : Nat) (x : Word) (b : Nat) :
    (m.put a x).word b = if b = a then x else m.word b := by
  induction m generalizing lo with
  | nil => exact word_cell rfl x b
  | cons c m ih =>
    obtain ⟨k, y⟩ := c
    have hc := (wfFrom_cons ..).1 hm
    unfold put
    split
    · rw [word_cons, word_cons, ih hc.2.2]
      split <;> split <;> first | rfl | omega
    · split
      · subst k
        rw [word_cell hc.2.2, word_cons]
        by_cases hb : b = a
        · rw [if_pos hb, if_pos hb]
        · rw [if_neg hb, if_neg hb, if_neg (by omega)]
      · rw [word_cell ((wfFrom_cons ..).2 ⟨by omega, hc.2⟩)]

/-- A read after a write: the written word at its address, the old word everywhere else (R44). -/
theorem word_put {m : Memory} (hm : m.wf = true) (a : Nat) (x : Word) (b : Nat) :
    (m.put a x).word b = if b = a then x else m.word b := word_put_of_wfFrom hm a x b

theorem ext_of_wfFrom {lo lo' : Nat} {m m' : Memory} (hm : wfFrom lo m = true) (hm' : wfFrom lo' m' = true)
    (h : ∀ a, m.word a = m'.word a) : m = m' := by
  induction m generalizing lo lo' m' with
  | nil =>
    cases m' with
    | nil => rfl
    | cons c m' =>
      obtain ⟨k, x⟩ := c
      have hc := (wfFrom_cons ..).1 hm'
      have := h k
      rw [word_cons, if_pos rfl] at this
      exact absurd this.symm hc.2.1
  | cons c m ih =>
    obtain ⟨k, x⟩ := c
    have hc := (wfFrom_cons ..).1 hm
    have hk := h k
    rw [word_cons, if_pos rfl] at hk
    cases m' with
    | nil => exact absurd hk hc.2.1
    | cons c' m' =>
      obtain ⟨k', x'⟩ := c'
      have hc' := (wfFrom_cons ..).1 hm'
      have hk' := h k'
      rw [word_cons (k := k'), if_pos rfl] at hk'
      have hkk : k = k' := by
        rcases Nat.lt_trichotomy k k' with hlt | heq | hgt
        · rw [word_below (lo := k') ((wfFrom_cons ..).2 ⟨le_rfl, hc'.2⟩) hlt] at hk
          exact absurd hk hc.2.1
        · exact heq
        · rw [word_below (lo := k) ((wfFrom_cons ..).2 ⟨le_rfl, hc.2⟩) hgt] at hk'
          exact absurd hk'.symm hc'.2.1
      subst k'
      rw [word_cons, if_pos rfl] at hk'
      subst x'
      rw [ih hc.2.2 hc'.2.2 fun a => ?_]
      by_cases ha : a < k + 1
      · rw [word_below hc.2.2 ha, word_below hc'.2.2 ha]
      · have := h a
        rwa [word_cons, word_cons, if_neg (by omega), if_neg (by omega)] at this

/-- Two canonical Memories with the same words are the same data (R31). -/
theorem ext {m m' : Memory} (hm : m.wf = true) (hm' : m'.wf = true) (h : ∀ a, m.word a = m'.word a) : m = m' :=
  ext_of_wfFrom hm hm' h

end Memory

theorem memRead_nat (m : Memory) {a : Int} (ha : 0 ≤ a) : memRead m a = .ok (m.word a.toNat) := by
  rw [memRead, if_neg (by omega)]

theorem memRead_neg (m : Memory) {a : Int} (ha : a < 0) : memRead m a = .error (.invalidAddress a) := by
  rw [memRead, if_pos ha]

theorem memWrite_nat (m : Memory) {a : Int} (ha : 0 ≤ a) (v : Int) :
    memWrite m a v = .ok (m.put a.toNat (maskWord v)) := by
  rw [memWrite, if_neg (by omega)]

theorem memWrite_neg (m : Memory) {a : Int} (ha : a < 0) (v : Int) :
    memWrite m a v = .error (.invalidAddress a) := by
  rw [memWrite, if_pos ha]

/-- All a `memWrite` can do: fail at a negative address, or put one word. -/
theorem memWrite_cases (m : Memory) (a v : Int) :
    (a < 0 ∧ memWrite m a v = .error (.invalidAddress a)) ∨
      (0 ≤ a ∧ memWrite m a v = .ok (m.put a.toNat (maskWord v))) := by
  rcases lt_or_ge a 0 with h | h
  · exact .inl ⟨h, memWrite_neg m h v⟩
  · exact .inr ⟨h, memWrite_nat m h v⟩

/-- Masking a word's own value changes nothing (R146). -/
@[simp] theorem maskWord_toNat (v : Word) : maskWord (v.toNat : Int) = v := by
  simp [maskWord]

end Sys2Proof.Machine
end

