-- ==== Sys2Proof/Laws/Ops.lean ====
section
/-! SUPPORT. What the shared operations and the four meanings can do: one lemma each for the case where every address is
a natural number, one for the whole of `exec`, and the run state by cases. -/

namespace Sys2Proof.Machine

@[simp] theorem commit_ok (m : Memory) (s : State) : commit (.ok m) s = .next { s with mem := m } := rfl

@[simp] theorem commit_error (e : MachineError) (s : State) :
    commit (.error e) s = .next { s with error := some e } := rfl

@[simp] theorem writeValue_ok (v : Word) (m : Memory) (d : Int) : writeValue (.ok v) m d = memWrite m d (v.toNat : Int) := rfl

@[simp] theorem writeValue_error (e : MachineError) (m : Memory) (d : Int) : writeValue (.error e) m d = .error e := rfl

@[simp] theorem complemented_ok (v : Word) : complemented (.ok v) = .ok (complement v) := rfl

@[simp] theorem complemented_error (e : MachineError) : complemented (.error e) = .error e := rfl

/-- The write of a word that has been read. -/
theorem writeValue_nat (v : Word) (m : Memory) {d : Int} (hd : 0 ≤ d) :
    writeValue (.ok v) m d = .ok (m.put d.toNat v) := by
  rw [writeValue_ok, memWrite_nat m hd, maskWord_toNat]

/-- The indirect read where both its addresses are natural numbers: `mem[mem[B] + C]` (R145). -/
theorem readIndirect_nat (m : Memory) {b c : Int} (hb : 0 ≤ b) (hea : 0 ≤ effectiveAddress (m.word b.toNat) c) :
    readIndirect m b c = .ok (m.word (effectiveAddress (m.word b.toNat) c).toNat) := by
  rw [readIndirect, memRead_nat m hb]
  exact memRead_nat m hea

theorem readIndirect_cases (m : Memory) (b c : Int) :
    (∃ a, a < 0 ∧ readIndirect m b c = .error (.invalidAddress a)) ∨ ∃ v, readIndirect m b c = .ok v := by
  rcases lt_or_ge b 0 with hb | hb
  · exact .inl ⟨b, hb, by rw [readIndirect, memRead_neg m hb]⟩
  · rcases lt_or_ge (effectiveAddress (m.word b.toNat) c) 0 with he | he
    · exact .inl ⟨_, he, by rw [readIndirect, memRead_nat m hb]; exact memRead_neg m he⟩
    · exact .inr ⟨_, readIndirect_nat m hb he⟩

/-- A write of a read's value, whole: an invalid address, or one word put at the destination. -/
theorem writeValue_cases {r : Except MachineError Word} (m : Memory) (d : Int)
    (hr : (∃ a, a < 0 ∧ r = .error (.invalidAddress a)) ∨ ∃ v, r = .ok v) :
    (∃ a, a < 0 ∧ writeValue r m d = .error (.invalidAddress a)) ∨
      ∃ v, 0 ≤ d ∧ writeValue r m d = .ok (m.put d.toNat v) := by
  rcases hr with ⟨a, ha, rfl⟩ | ⟨v, rfl⟩
  · exact .inl ⟨a, ha, rfl⟩
  · rcases lt_or_ge d 0 with hd | hd
    · exact .inl ⟨d, hd, memWrite_neg m hd _⟩
    · exact .inr ⟨v, hd, writeValue_nat v m hd⟩

/-- All `exec` can do: put one word at the instruction's destination, or go to Faulted with an invalid address
(R147, R152, R153). -/
theorem exec_cases (i : Instr) (s : State) :
    (∃ v, 0 ≤ destination i ∧ exec i s = .next { s with mem := s.mem.put (destination i).toNat v }) ∨
      ∃ a, a < 0 ∧ exec i s = .next { s with error := some (.invalidAddress a) } := by
  have close : ∀ (r : Except MachineError Memory) (d : Int),
      ((∃ a, a < 0 ∧ r = .error (.invalidAddress a)) ∨ ∃ v, 0 ≤ d ∧ r = .ok (s.mem.put d.toNat v)) →
      (∃ v, 0 ≤ d ∧ commit r s = .next { s with mem := s.mem.put d.toNat v }) ∨
        ∃ a, a < 0 ∧ commit r s = .next { s with error := some (.invalidAddress a) } := by
    rintro r d (⟨a, ha, rfl⟩ | ⟨v, hd, rfl⟩)
    · exact .inr ⟨a, ha, rfl⟩
    · exact .inl ⟨v, hd, rfl⟩
  cases i with
  | loadConst b c =>
    refine close _ c ?_
    rcases memWrite_cases s.mem c b with ⟨h, e⟩ | ⟨h, e⟩
    · exact .inl ⟨c, h, e⟩
    · exact .inr ⟨_, h, e⟩
  | readMem b c d => exact close _ d (writeValue_cases s.mem d (readIndirect_cases s.mem b c))
  | writeMem b c =>
    refine close _ c (writeValue_cases s.mem c ?_)
    rcases lt_or_ge b 0 with h | h
    · exact .inl ⟨b, h, memRead_neg s.mem h⟩
    · exact .inr ⟨_, memRead_nat s.mem h⟩
  | notMem b c d =>
    refine close _ d (writeValue_cases s.mem d ?_)
    rcases readIndirect_cases s.mem b c with ⟨a, ha, e⟩ | ⟨v, e⟩
    · exact .inl ⟨a, ha, by rw [e]; rfl⟩
    · exact .inr ⟨complement v, by rw [e]; rfl⟩

/-- `exec` reads Memory and nothing else of the state (R140). -/
theorem exec_reads_mem (i : Instr) : ∃ g : Memory → Except MachineError Memory, ∀ s, exec i s = commit (g s.mem) s := by
  cases i with
  | loadConst b c => exact ⟨fun m => memWrite m c b, fun _ => rfl⟩
  | readMem b c d => exact ⟨fun m => writeValue (readIndirect m b c) m d, fun _ => rfl⟩
  | writeMem b c => exact ⟨fun m => writeValue (memRead m b) m c, fun _ => rfl⟩
  | notMem b c d => exact ⟨fun m => writeValue (complemented (readIndirect m b c)) m d, fun _ => rfl⟩

/-- A word put at `a` is all that changes. -/
theorem storesOnly_put {s : State} (hm : s.mem.wf = true) (a : Nat) (v : Word) :
    StoresOnly s { s with mem := s.mem.put a v } a v where
  stored := by rw [Memory.word_put hm, if_pos rfl]
  others x hx := by rw [Memory.word_put hm, if_neg hx]
  beside := ⟨rfl, rfl, rfl, rfl, rfl⟩

/-! ### The run state -/

theorem inBounds_iff (s : State) : inBounds s = true ↔ s.pc < s.program.length := by simp [inBounds]

theorem budgetAllows_iff (s : State) : budgetAllows s = true ↔ ∀ b, s.budget = some b → s.steps < b := by
  rw [budgetAllows]
  split <;> simp_all

/-- Running is: no error, `pc` in bounds, the budget not reached (R25). -/
theorem runState_running (s : State) :
    runState s = .running ↔ s.error = none ∧ inBounds s = true ∧ budgetAllows s = true := by
  rw [runState]
  split
  · simp_all
  · split
    · simp_all
    · split <;> simp_all

theorem enabled_iff (s : State) :
    enabled s = true ↔ s.error = none ∧ inBounds s = true ∧ budgetAllows s = true := by
  rw [enabled, decide_eq_true_eq, runState_running]

/-- `step` has no terminal name exactly where the step is enabled. -/
theorem terminalFault_none (s : State) : terminalFault s = none ↔ enabled s = true := by
  rw [enabled_iff, terminalFault]
  split
  · simp_all
  · split
    · simp_all
    · split <;> simp_all

theorem fetch_of_inBounds {s : State} (h : inBounds s = true) : ∃ mi, fetch s = some mi ∧ mi ∈ s.program := by
  rw [inBounds_iff] at h
  exact ⟨s.program[s.pc], by rw [fetch, List.getElem?_eq_getElem h], List.getElem_mem h⟩

end Sys2Proof.Machine
end

