-- ==== Sys2Proof/Laws/Step.lean ====
section
/-! SUPPORT. All a step can do. -/

namespace Sys2Proof.Machine

/-- The two errors a run can raise (R190). -/
def RunError (e : MachineError) : Prop := (∃ a, a < 0 ∧ e = .invalidAddress a) ∨ ∃ m, e = .unsupportedInstruction m

/-- What follows a fetch (R163): the effect with the increments, Faulted, or the refusal of a missing field. -/
theorem runFetched_cases (mi : MachineInstruction) {s : State} (he : s.error = none) :
    (∃ i v, mi.dispatch = .ok i ∧ 0 ≤ destination i ∧
        exec i s = .next { s with mem := s.mem.put (destination i).toNat v } ∧
        runFetched mi s = .next (advance { s with mem := s.mem.put (destination i).toNat v })) ∨
      (∃ e, RunError e ∧ runFetched mi s = .next { s with error := some e }) ∨
      ∃ m f, mi.dispatch = .error (.missingField m f) ∧ runFetched mi s = .refused (.missingField m f) := by
  unfold runFetched
  cases h : mi.dispatch with
  | error x =>
    cases x with
    | unsupported m => exact .inr (.inl ⟨_, .inr ⟨m, rfl⟩, rfl⟩)
    | missingField m f => exact .inr (.inr ⟨m, f, rfl, rfl⟩)
  | ok i =>
    rcases exec_cases i s with ⟨v, hd, hx⟩ | ⟨a, ha, hx⟩
    · exact .inl ⟨i, v, rfl, hd, hx, by simp only [hx, retire, he, if_true]⟩
    · exact .inr (.inl ⟨.invalidAddress a, .inl ⟨a, ha, rfl⟩, by simp [hx, retire]⟩)

/-- An enabled step runs the fetched instruction. -/
theorem step_enabled {s : State} (h : enabled s = true) {mi : MachineInstruction} (hf : fetch s = some mi) :
    step s = runFetched mi s := by
  rw [step, engineStep, (terminalFault_none s).2 h, hf]

/-- A step that is not enabled is a stop. -/
theorem step_disabled {s : State} (h : enabled s = false) : ∃ f, terminalFault s = some f ∧ step s = .fault f := by
  cases ht : terminalFault s with
  | none => rw [(terminalFault_none s).1 ht] at h; cases h
  | some f => exact ⟨f, rfl, by rw [step, engineStep, ht]⟩

/-- A next state comes only from an enabled step: one word put and both counters advanced, or Faulted. -/
theorem step_next {s t : State} (h : step s = .next t) :
    enabled s = true ∧ ∃ mi, fetch s = some mi ∧ mi ∈ s.program ∧
      ((∃ i v, mi.dispatch = .ok i ∧ 0 ≤ destination i ∧
          exec i s = .next { s with mem := s.mem.put (destination i).toNat v } ∧
          t = advance { s with mem := s.mem.put (destination i).toNat v }) ∨
        ∃ e, RunError e ∧ t = { s with error := some e }) := by
  cases he : enabled s with
  | false =>
    obtain ⟨f, -, hf⟩ := step_disabled he
    rw [hf] at h
    cases h
  | true =>
    have hen := (enabled_iff s).1 he
    obtain ⟨mi, hf, hmem⟩ := fetch_of_inBounds hen.2.1
    rw [step_enabled he hf] at h
    refine ⟨rfl, mi, hf, hmem, ?_⟩
    rcases runFetched_cases mi hen.1 with ⟨i, v, hd, h0, hx, hr⟩ | ⟨e, hk, hr⟩ | ⟨m, f, -, hr⟩
    · rw [hr] at h
      injection h with h
      exact .inl ⟨i, v, hd, h0, hx, h.symm⟩
    · rw [hr] at h
      injection h with h
      exact .inr ⟨e, hk, h.symm⟩
    · rw [hr] at h
      cases h

end Sys2Proof.Machine
end

