-- ==== Sys2Proof/Laws/Decoding.lean ====
section
/-! SUPPORT. All that decoding a word and dispatching what it yields can do, and what a well-formed instruction does. -/

namespace Sys2Proof

/-- R72 and R73 as facts about a SCHEMA. -/
structure Schema.Sound (S : Schema) : Prop where
  rows : ∀ d ∈ S, d.Sound
  mnemonics : (S.map (·.mnemonic)).Nodup
  opcodes : (S.map (·.opcode)).Nodup

theorem Schema.sound {S : Schema} (h : S.wellFormed = true) : Schema.Sound S := by
  simp only [Schema.wellFormed, Bool.and_eq_true, decide_eq_true_eq, List.all_eq_true] at h
  exact ⟨fun d hd => InstructionDefinition.sound (h.1.1 d hd), h.1.2, h.2⟩

theorem schema_wellFormed : schema.wellFormed = true := by decide

/-- Where keys are distinct, a search by key finds the one element that has it. -/
theorem find_of_nodup {α β : Type} [DecidableEq β] {l : List α} (key : α → β) (hl : (l.map key).Nodup) {x : α}
    (hx : x ∈ l) : l.find? (fun y => key y == key x) = some x := by
  induction l with
  | nil => cases hx
  | cons y l ih =>
    rw [List.map_cons, List.nodup_cons] at hl
    rw [List.find?_cons]
    rcases List.mem_cons.1 hx with rfl | hx
    · simp
    · have : key y ≠ key x := fun e => hl.1 (e ▸ List.mem_map_of_mem hx)
      rw [beq_eq_false_iff_ne.2 this]
      exact ih hl.2 hx

/-- All a successful `decode_word` says (R123). -/
theorem decodeWordIn_ok {S : Schema} {w : InstrWord} {mi : MachineInstruction} (h : decodeWordIn S w = .ok mi) :
    mi.definition ∈ S ∧ mi.definition.opcode = opcodeOf w ∧ mi.fields = mi.definition.extract w ∧ mi.raw = w := by
  rw [decodeWordIn, lookupOpcodeIn] at h
  split at h
  · next d hd =>
    split at hd
    · next d' hf =>
      cases hd
      cases h
      exact ⟨List.mem_of_find?_eq_some hf, by simpa using List.find?_some hf, rfl, rfl⟩
    · cases hd
  · cases h

/-- All a failed `decode_word` says (R121). -/
theorem decodeWordIn_error {S : Schema} {w : InstrWord} {e : MachineError} (h : decodeWordIn S w = .error e) :
    (∀ d ∈ S, d.opcode ≠ opcodeOf w) ∧ e = .unknownOpcode (opcodeOf w) := by
  rw [decodeWordIn, lookupOpcodeIn] at h
  split at h
  · cases h
  · next e' he =>
    split at he
    · cases he
    · next hn =>
      cases he
      cases h
      rw [List.find?_eq_none] at hn
      exact ⟨fun d hd => by simpa using hn d hd, rfl⟩

/-- What the machine's decoder yields dispatches, to a well-formed instruction. -/
theorem decodeWord_dispatch {w : InstrWord} {mi : MachineInstruction} (h : decodeWord w = .ok mi) :
    ∃ i, mi.dispatch = .ok i ∧ i.wellFormed = true := by
  obtain ⟨hd, -, hf, -⟩ := decodeWordIn_ok h
  obtain ⟨d, fields, raw⟩ := mi
  simp only at hd hf
  subst hf
  have fit := fun f : FieldDefinition => f.extract_fits w
  simp only [schema, List.mem_cons, List.not_mem_nil, or_false] at hd
  rcases hd with rfl | rfl | rfl | rfl
  · exact ⟨.loadConst _ _, rfl, by rw [Instr.wellFormed, Bool.and_eq_true]; exact ⟨fit _, fit _⟩⟩
  · exact ⟨.readMem _ _ _, rfl, by rw [Instr.wellFormed, Bool.and_eq_true, Bool.and_eq_true]; exact ⟨⟨fit _, fit _⟩, fit _⟩⟩
  · exact ⟨.writeMem _ _, rfl, by rw [Instr.wellFormed, Bool.and_eq_true]; exact ⟨fit _, fit _⟩⟩
  · exact ⟨.notMem _ _ _, rfl, by rw [Instr.wellFormed, Bool.and_eq_true, Bool.and_eq_true]; exact ⟨⟨fit _, fit _⟩, fit _⟩⟩

/-- A mnemonic outside the four is unsupported (R152 (a)). -/
theorem dispatch_unsupported {mi : MachineInstruction}
    (h : mi.definition.mnemonic ∉ ["LOAD_CONST", "READ_MEM", "WRITE_MEM", "NOT_MEM"]) :
    mi.dispatch = .error (.unsupported mi.definition.mnemonic) := by
  simp only [List.mem_cons, List.not_mem_nil, or_false, not_or] at h
  rw [MachineInstruction.dispatch, if_neg h.1, if_neg h.2.1, if_neg h.2.2.1, if_neg h.2.2.2]

theorem operand_cases (mi : MachineInstruction) (n : String) :
    (∃ v, mi.fields.lookup n = some v ∧ mi.operand n = .ok v) ∨
      mi.fields.lookup n = none ∧ mi.operand n = .error (.missingField mi.definition.mnemonic n) := by
  rw [MachineInstruction.operand]
  cases mi.fields.lookup n with
  | none => exact .inr ⟨rfl, rfl⟩
  | some v => exact .inl ⟨v, rfl, rfl⟩

/-- A missing field is reported truly: the mapping lacks it, and the mnemonic is the instruction's own (log 8). -/
theorem dispatch_missingField {mi : MachineInstruction} {m f : String} (h : mi.dispatch = .error (.missingField m f)) :
    m = mi.definition.mnemonic ∧ mi.fields.lookup f = none := by
  rw [MachineInstruction.dispatch] at h
  rcases operand_cases mi "B" with ⟨b, -, eb⟩ | ⟨lb, eb⟩ <;>
    rcases operand_cases mi "C" with ⟨c, -, ec⟩ | ⟨lc, ec⟩ <;>
    rcases operand_cases mi "D" with ⟨d, -, ed⟩ | ⟨ld, ed⟩ <;>
    simp only [eb, ec, ed, bind, Except.bind, pure, Except.pure] at h <;>
    split_ifs at h <;> cases h <;> exact ⟨rfl, by assumption⟩

/-- Dispatch reads the mnemonic and the mapping, and of the mapping only its values (R140). -/
theorem dispatch_congr {mi mi' : MachineInstruction} (hd : mi.definition = mi'.definition)
    (hf : ∀ n, mi.fields.lookup n = mi'.fields.lookup n) : mi.dispatch = mi'.dispatch := by
  simp only [MachineInstruction.dispatch, MachineInstruction.operand, hd, hf]

namespace Machine

/-- A well-formed instruction puts one word at its destination, which a 32-bit field names. -/
theorem exec_wellFormed {i : Instr} (h : i.wellFormed = true) (s : State) :
    ∃ v, 0 ≤ destination i ∧ (destination i).toNat < 2 ^ 32 ∧
      exec i s = .next { s with mem := s.mem.put (destination i).toNat v } := by
  have ea : ∀ {b c : Int}, 0 ≤ c → 0 ≤ effectiveAddress (s.mem.word b.toNat) c := fun hc => by
    rw [effectiveAddress]; omega
  cases i with
  | loadConst b c =>
    simp only [Instr.wellFormed, Bool.and_eq_true, fitsField_iff] at h
    exact ⟨_, h.2.1, h.2.2, by rw [exec, execLoadConst, memWrite_nat _ h.2.1]; rfl⟩
  | readMem b c d =>
    simp only [Instr.wellFormed, Bool.and_eq_true, fitsField_iff] at h
    exact ⟨_, h.2.1, h.2.2,
      by rw [exec, execReadMem, readIndirect_nat _ h.1.1.1 (ea h.1.2.1), writeValue_nat _ _ h.2.1]; rfl⟩
  | writeMem b c =>
    simp only [Instr.wellFormed, Bool.and_eq_true, fitsField_iff] at h
    exact ⟨_, h.2.1, h.2.2, by rw [exec, execWriteMem, memRead_nat _ h.1.1, writeValue_nat _ _ h.2.1]; rfl⟩
  | notMem b c d =>
    simp only [Instr.wellFormed, Bool.and_eq_true, fitsField_iff] at h
    exact ⟨_, h.2.1, h.2.2,
      by rw [exec, execNotMem, readIndirect_nat _ h.1.1.1 (ea h.1.2.1), complemented_ok, writeValue_nat _ _ h.2.1]; rfl⟩

/-- `step` stops exactly in a terminal state, under its name. -/
theorem step_fault {s : State} {f : Fault} : step s = .fault f ↔ terminalFault s = some f := by
  cases he : enabled s with
  | false =>
    obtain ⟨g, h1, h2⟩ := step_disabled he
    rw [h1, h2]
    simp
  | true =>
    have hx := (enabled_iff s).1 he
    obtain ⟨mi, hf, -⟩ := fetch_of_inBounds hx.2.1
    rw [step_enabled he hf, (terminalFault_none s).2 he]
    rcases runFetched_cases mi hx.1 with ⟨_, _, _, _, _, h⟩ | ⟨_, _, h⟩ | ⟨_, _, _, h⟩ <;> rw [h] <;> simp

end Machine
end Sys2Proof
end

