-- ==== Sys2Proof/Tests/Slice0.lean ====
section
/-! SUPPORT. Tests of the model on values that spec/95_test_vectors.md and the rules of the spec give, and after them
a witness for the hypotheses of every obligation that has any. "Row n" is the row n of the table named before it. -/

namespace Sys2Proof.Tests

open Sys2Proof.Machine

/-! ### Well-formedness refuses -/

theorem test_schema_is_wellFormed : schema.wellFormed = true ∧ schema.named = true := by decide

/-- Every operand at its mask, and one above it (R74, V-ERR rows 5 to 12). -/
theorem test_instr_upper_bounds :
    Instr.wellFormed (.loadConst (2 ^ 64 - 1) (2 ^ 32 - 1)) = true ∧
    Instr.wellFormed (.loadConst (2 ^ 64) 0) = false ∧ Instr.wellFormed (.loadConst 0 (2 ^ 32)) = false ∧
    Instr.wellFormed (.readMem (2 ^ 32 - 1) 65535 (2 ^ 32 - 1)) = true ∧
    Instr.wellFormed (.readMem (2 ^ 32) 0 0) = false ∧ Instr.wellFormed (.readMem 0 65536 0) = false ∧
    Instr.wellFormed (.readMem 0 0 (2 ^ 32)) = false ∧
    Instr.wellFormed (.writeMem (2 ^ 32 - 1) (2 ^ 32 - 1)) = true ∧
    Instr.wellFormed (.writeMem (2 ^ 32) 0) = false ∧ Instr.wellFormed (.writeMem 0 (2 ^ 32)) = false ∧
    Instr.wellFormed (.notMem (2 ^ 32 - 1) 65535 (2 ^ 32 - 1)) = true ∧
    Instr.wellFormed (.notMem (2 ^ 32) 0 0) = false ∧ Instr.wellFormed (.notMem 0 65536 0) = false ∧
    Instr.wellFormed (.notMem 0 0 (2 ^ 32)) = false := by decide

theorem test_instr_lower_bounds :
    Instr.wellFormed (.loadConst (-1) 0) = false ∧ Instr.wellFormed (.loadConst 0 (-1)) = false ∧
    Instr.wellFormed (.readMem (-1) 0 0) = false ∧ Instr.wellFormed (.readMem 0 (-1) 0) = false ∧
    Instr.wellFormed (.readMem 0 0 (-1)) = false ∧
    Instr.wellFormed (.writeMem (-1) 0) = false ∧ Instr.wellFormed (.writeMem 0 (-1)) = false ∧
    Instr.wellFormed (.notMem (-1) 0 0) = false ∧ Instr.wellFormed (.notMem 0 (-1) 0) = false ∧
    Instr.wellFormed (.notMem 0 0 (-1)) = false := by decide

theorem test_fieldMap_refuses_a_duplicate :
    FieldMap.wellFormed [("B", 1), ("B", 2)] = false ∧ FieldMap.wellFormed [("B", 1), ("C", 1)] = true := by decide

/-- R72 (a) and (c): inside the opcode, an empty range, past bit 111. -/
theorem test_field_bounds :
    FieldDefinition.wellFormed ⟨"B", 4, 8⟩ = false ∧ FieldDefinition.wellFormed ⟨"B", 9, 8⟩ = false ∧
    FieldDefinition.wellFormed ⟨"B", 100, 112⟩ = false ∧ FieldDefinition.wellFormed ⟨"B", 5, 111⟩ = true := by decide

/-- R71 to R73: an opcode above 31, a bad field, an overlap in one bit, a name twice. -/
theorem test_definition_refuses :
    InstructionDefinition.wellFormed ⟨"X", 32, []⟩ = false ∧
    InstructionDefinition.wellFormed ⟨"X", 9, [⟨"B", 4, 8⟩]⟩ = false ∧
    InstructionDefinition.wellFormed ⟨"X", 9, [⟨"B", 5, 10⟩, ⟨"C", 10, 20⟩]⟩ = false ∧
    InstructionDefinition.wellFormed ⟨"X", 9, [⟨"B", 5, 10⟩, ⟨"B", 11, 20⟩]⟩ = false ∧
    InstructionDefinition.wellFormed ⟨"X", 31, [⟨"C", 11, 20⟩, ⟨"B", 5, 10⟩]⟩ = true := by decide

/-- R73: a bad row, a mnemonic twice, an opcode twice. R74: a row missing, a field name missing. -/
theorem test_schema_refuses :
    Schema.wellFormed [⟨"X", 32, []⟩] = false ∧ Schema.wellFormed [⟨"X", 1, []⟩, ⟨"X", 2, []⟩] = false ∧
    Schema.wellFormed [⟨"X", 1, []⟩, ⟨"Y", 1, []⟩] = false ∧ Schema.wellFormed [⟨"X", 0, []⟩, ⟨"Y", 31, []⟩] = true ∧
    Schema.named (schema.take 3) = false ∧ Schema.named (⟨"LOAD_CONST", 1, [⟨"B", 5, 68⟩]⟩ :: schema.drop 1) = false := by
  decide

/-! ### Encoding and decoding, by the words of V-ENC -/

/-- The word decodes to the instruction and the instruction encodes to the word. -/
def pairs (w : InstrWord) (i : Instr) : Bool :=
  decide (decodeTableWord 112 w.toNat = some i) && decide (encode i = .ok w)

/-- V-ENC rows 1 to 6. -/
theorem test_words_of_loadConst :
    pairs 0x0000000001400000000000000C81 (.loadConst 100 10) = true ∧
    pairs 0x0000000000000000000000000001 (.loadConst 0 0) = true ∧
    pairs 0x001FFFFFFFFFFFFFFFFFFFFFFFE1 (.loadConst 0xFFFFFFFFFFFFFFFF 0xFFFFFFFF) = true ∧
    pairs 0x0000000000000000000000000021 (.loadConst 1 0) = true ∧
    pairs 0x0000000000200000000000000001 (.loadConst 0 1) = true ∧
    pairs 0x0002468ACF1BD5B7DDF95FDE01A1 (.loadConst 0xDEADBEEFCAFEF00D 0x12345678) = true := by decide

/-- V-ENC rows 7 to 12. -/
theorem test_words_of_readMem :
    pairs 0x0000000000000280006000000142 (.readMem 10 3 20) = true ∧
    pairs 0x0000000000000000000000000002 (.readMem 0 0 0) = true ∧
    pairs 0x0000001FFFFFFFFFFFFFFFFFFFE2 (.readMem 0xFFFFFFFF 65535 0xFFFFFFFF) = true ∧
    pairs 0x0000000000000000000000000022 (.readMem 1 0 0) = true ∧
    pairs 0x0000000000000000002000000002 (.readMem 0 1 0) = true ∧
    pairs 0x0000000000000020000000000002 (.readMem 0 0 1) = true := by decide

/-- V-ENC rows 13 to 16. -/
theorem test_words_of_writeMem :
    pairs 0x000000000000000002A000000283 (.writeMem 20 21) = true ∧
    pairs 0x0000000000000000000000000003 (.writeMem 0 0) = true ∧
    pairs 0x00000000001FFFFFFFFFFFFFFFE3 (.writeMem 0xFFFFFFFF 0xFFFFFFFF) = true ∧
    pairs 0x0000000000000000002000000003 (.writeMem 0 1) = true := by decide

/-- V-ENC rows 17 to 19. -/
theorem test_words_of_notMem :
    pairs 0x0000000000000280006000000144 (.notMem 10 3 20) = true ∧
    pairs 0x0000000000000000000000000004 (.notMem 0 0 0) = true ∧
    pairs 0x0000001FFFFFFFFFFFFFFFFFFFE4 (.notMem 0xFFFFFFFF 65535 0xFFFFFFFF) = true := by decide

/-- V-ENC row 6, bytes 0 to 13, and back. -/
theorem test_bytes_are_little_endian :
    bytesOf 0x0002468ACF1BD5B7DDF95FDE01A1 =
      [0xA1, 0x01, 0xDE, 0x5F, 0xF9, 0xDD, 0xB7, 0xD5, 0x1B, 0xCF, 0x8A, 0x46, 0x02, 0x00] ∧
    wordOf [0xA1, 0x01, 0xDE, 0x5F, 0xF9, 0xDD, 0xB7, 0xD5, 0x1B, 0xCF, 0x8A, 0x46, 0x02, 0x00] =
      0x0002468ACF1BD5B7DDF95FDE01A1 := by decide

/-- V-DEC rows 5, 6, 7 and 9: unused bits at 1 are ignored. -/
theorem test_decode_ignores_unused_bits :
    decodeInstr 0xFFFFFFFFFFFFFFFFFFFFFFFFFFE1 = .ok (.loadConst 0xFFFFFFFFFFFFFFFF 0xFFFFFFFF) ∧
    decodeInstr 0xFFFFFFFFFFFFFFFFFFFFFFFFFFE2 = .ok (.readMem 0xFFFFFFFF 65535 0xFFFFFFFF) ∧
    decodeInstr 0xFFFFFFFFFFFFFFFFFFFFFFFFFFE3 = .ok (.writeMem 0xFFFFFFFF 0xFFFFFFFF) ∧
    decodeInstr 0xFFFFFFE000000280006000000142 = .ok (.readMem 10 3 20) := by decide

/-- V-DEC row 8: the whole Machine Instruction, with its non-canonical `raw`, and its canonical word. -/
theorem test_decode_keeps_raw :
    decodeWord 0x800000000020000002A000000283 =
      .ok { definition := schema[2], fields := [("B", 20), ("C", 21)], raw := 0x800000000020000002A000000283 } ∧
    schema[2].canon 0x800000000020000002A000000283 = 0x000000000000000002A000000283 := by decide

/-- V-DEC rows 1 to 4. -/
theorem test_decode_refuses_by_name :
    decodeWord 0 = .error (.unknownOpcode 0) ∧ decodeWord 5 = .error (.unknownOpcode 5) ∧
    decodeWord 0x1F = .error (.unknownOpcode 31) ∧
    decodeWord 0xFFFFFFFFFFFFFFFFFFFFFFFFFFFF = .error (.unknownOpcode 31) := by decide

/-- The note under V-DEC: of the 32 opcodes exactly 1, 2, 3 and 4 decode. -/
theorem test_exactly_four_opcodes_decode :
    ∀ o : Fin 32, (decodeWord (BitVec.ofNat 112 o.val)).toOption.isSome = decide (1 ≤ o.val ∧ o.val ≤ 4) := by decide

theorem test_decodeBytes_refuses_other_lengths :
    decodeBytes [] = .error (.malformedBinary 0) ∧ decodeBytes (List.replicate 15 1) = .error (.malformedBinary 15) := by
  decide

/-! ### Encoder errors -/

/-- What `encode_program` answers for one instruction. -/
def encodeOne (m : String) (f : FieldMap) : Except LocatedError (List InstrWord) := encodeProgram [⟨m, f⟩]

/-- The note under V-ENC: case folding of the mnemonic. -/
theorem test_mnemonic_case :
    encodeOne "read_mem" [("B", 10), ("C", 3), ("D", 20)] = .ok [0x0000000000000280006000000142] ∧
    encodeOne "Read_Mem" [("D", 20), ("C", 3), ("B", 10)] = .ok [0x0000000000000280006000000142] := by decide

/-- V-ERR rows 1 to 4 and 22. -/
theorem test_unknown_mnemonics :
    encodeOne "JMP" [("B", 1)] = .error ⟨.unknownMnemonic "JMP", some 0⟩ ∧
    encodeOne "LOADCONST" [("B", 1), ("C", 2)] = .error ⟨.unknownMnemonic "LOADCONST", some 0⟩ ∧
    encodeOne "" [] = .error ⟨.unknownMnemonic "", some 0⟩ ∧
    encodeOne " NOT_MEM" [] = .error ⟨.unknownMnemonic " NOT_MEM", some 0⟩ ∧
    encodeOne "JMP" [("B", 2 ^ 70)] = .error ⟨.unknownMnemonic "JMP", some 0⟩ := by decide

/-- V-ERR rows 6, 8, 10 and 12 to 14. -/
theorem test_range_errors :
    encodeOne "READ_MEM" [("B", 0), ("C", 65536), ("D", 0)] = .error ⟨.rangeError "C" 16 65536, some 0⟩ ∧
    encodeOne "LOAD_CONST" [("B", 2 ^ 64), ("C", 0)] = .error ⟨.rangeError "B" 64 (2 ^ 64), some 0⟩ ∧
    encodeOne "LOAD_CONST" [("B", 0), ("C", 2 ^ 32)] = .error ⟨.rangeError "C" 32 (2 ^ 32), some 0⟩ ∧
    encodeOne "WRITE_MEM" [("B", 2 ^ 32), ("C", 0)] = .error ⟨.rangeError "B" 32 (2 ^ 32), some 0⟩ ∧
    encodeOne "WRITE_MEM" [("B", -1), ("C", 0)] = .error ⟨.rangeError "B" 32 (-1), some 0⟩ ∧
    encodeOne "NOT_MEM" [("B", -5), ("C", 70000), ("D", -1)] = .error ⟨.rangeError "B" 32 (-5), some 0⟩ := by decide

/-- V-ERR rows 15 to 21. -/
theorem test_schema_errors :
    encodeOne "LOAD_CONST" [("B", 1)] = .error ⟨.schemaError ["C"] [], some 0⟩ ∧
    encodeOne "WRITE_MEM" [("B", 1), ("C", 2), ("D", 3)] = .error ⟨.schemaError [] ["D"], some 0⟩ ∧
    encodeOne "READ_MEM" [("B", 1), ("C", 2), ("E", 3)] = .error ⟨.schemaError ["D"] ["E"], some 0⟩ ∧
    encodeOne "NOT_MEM" [] = .error ⟨.schemaError ["B", "C", "D"] [], some 0⟩ ∧
    encodeOne "LOAD_CONST" [("A", 1), ("B", 2), ("C", 3)] = .error ⟨.schemaError [] ["A"], some 0⟩ ∧
    encodeOne "LOAD_CONST" [("b", 2), ("C", 3)] = .error ⟨.schemaError ["B"] ["b"], some 0⟩ ∧
    encodeOne "LOAD_CONST" [("B", 2 ^ 70)] = .error ⟨.schemaError ["C"] [], some 0⟩ := by decide

/-- V-ERR rows 23 and 24. -/
theorem test_first_failure_ends_the_program :
    encodeProgram [⟨"LOAD_CONST", [("B", 1), ("C", 1)]⟩, ⟨"WRITE_MEM", [("B", 1)]⟩, ⟨"JMP", []⟩] =
      .error ⟨.schemaError ["C"] [], some 1⟩ ∧
    encodeProgram [] = .ok [] := by decide

/-! ### The loader -/

/-- V-ENC rows 1 and 7, as bytes. -/
def row1 : List Byte := [0x81, 0x0C, 0, 0, 0, 0, 0, 0, 0x40, 0x01, 0, 0, 0, 0]
def row7 : List Byte := [0x42, 0x01, 0, 0, 0x60, 0, 0x80, 0x02, 0, 0, 0, 0, 0, 0]

/-- `LOAD_CONST(B=100, C=10)` and `READ_MEM(B=10, C=3, D=20)` as DEC yields them. -/
def loaded1 : MachineInstruction :=
  { definition := schema[0], fields := [("B", 100), ("C", 10)], raw := 0x0000000001400000000000000C81 }
def loaded7 : MachineInstruction :=
  { definition := schema[1], fields := [("B", 10), ("C", 3), ("D", 20)], raw := 0x0000000000000280006000000142 }

/-- V-LOAD rows 1, 8 and 9. -/
theorem test_load_accepts :
    load [] = .ok [] ∧ load (row1 ++ row7) = .ok [loaded1, loaded7] ∧
    (load [0x83, 2, 0, 0, 0xA0, 2, 0, 0, 0x20, 0, 0, 0, 0, 0x80]).toOption.map (·.map (·.dispatch)) =
      some [.ok (.writeMem 20 21)] := by decide

/-- V-LOAD rows 2, 3, 4 and 5. -/
theorem test_load_checks_the_length_first :
    load [1] = .error ⟨.malformedBinary 1, none⟩ ∧ load (List.replicate 13 0) = .error ⟨.malformedBinary 13, none⟩ ∧
    load (row1 ++ [0]) = .error ⟨.malformedBinary 15, none⟩ ∧
    load (List.replicate 15 0) = .error ⟨.malformedBinary 15, none⟩ := by decide

/-- V-LOAD rows 6 and 7. -/
theorem test_load_names_the_chunk :
    load (List.replicate 14 0) = .error ⟨.unknownOpcode 0, some 0⟩ ∧
    load (row1 ++ 0x1F :: List.replicate 13 0) = .error ⟨.unknownOpcode 31, some 1⟩ := by decide

/-! ### Memory -/

/-- V-MEM rows 1 and 2. -/
theorem test_fresh_memory :
    memRead [] 0 = .ok 0 ∧ memRead [] 12345 = .ok 0 ∧ memRead [] (2 ^ 64) = .ok 0 ∧ memRead [] (2 ^ 200) = .ok 0 ∧
    memRead [] (-1) = .error (.invalidAddress (-1)) := by decide

/-- V-MEM rows 3 to 8 and 12, as Memories. -/
theorem test_writes_mask_and_stay_canonical :
    memWrite [] 7 9 = .ok [(7, 9)] ∧ memWrite [] 7 (2 ^ 64) = .ok [] ∧ memWrite [] 7 (2 ^ 64 + 5) = .ok [(7, 5)] ∧
    memWrite [] 7 (2 ^ 64 - 1) = .ok [(7, 0xFFFFFFFFFFFFFFFF)] ∧ memWrite [] (-1) 0 = .error (.invalidAddress (-1)) ∧
    memWrite [] (2 ^ 70) 1 = .ok [(2 ^ 70, 1)] ∧ memWrite [(7, 9)] 7 0 = .ok [] ∧
    memWrite [(6, 1), (8, 1)] 7 9 = .ok [(6, 1), (7, 9), (8, 1)] := by decide

/-- V-MEM rows 9 to 11. -/
theorem test_dump :
    memDump [(3, 5)] 2 4 = .ok [(2, 0), (3, 5), (4, 0)] ∧ memDump [] 0 0 = .ok [(0, 0)] ∧
    memDump [] 4 2 = .error (.invalidRange 4 2) ∧ memDump [] (-1) 2 = .error (.invalidRange (-1) 2) ∧
    memDump [] (-3) (-1) = .error (.invalidRange (-3) (-1)) := by decide

theorem test_reset_memory_is_canonical : State.reset.mem.wf = true := by decide

theorem test_canonical_form_refuses :
    Memory.wf [(7, 9), (7, 9)] = false ∧ Memory.wf [(8, 9), (7, 9)] = false ∧ Memory.wf [(7, 0)] = false := by decide

/-! ### Single instructions, by V-EXEC -/

/-- The state of a next outcome. -/
def nextOf (o : Host.Outcome State Fault Refusal) : Option State :=
  match o with
  | .next t => some t
  | .fault _ => none
  | .refused _ => none

theorem next_of {o : Host.Outcome State Fault Refusal} {t : State} (h : nextOf o = some t) : o = .next t := by
  cases o <;> simp_all [nextOf]

/-- The reset state with a given Memory. -/
def holding (m : Memory) : State := { State.reset with mem := m }

/-- The Memory after one instruction on a given Memory, and the error recorded. -/
def after (i : Instr) (m : Memory) : Option (Memory × Option MachineError) :=
  (nextOf (exec i (holding m))).map fun t => (t.mem, t.error)

/-- Row 2: constant 0 overwrites. -/
theorem test_loadConst_zero : after (.loadConst 0 10) [(10, 100)] = some ([], none) := by decide

/-- Row 3: the largest constant, address 0. -/
theorem test_loadConst_mask : after (.loadConst 0xFFFFFFFFFFFFFFFF 0) [] = some ([(0, 0xFFFFFFFFFFFFFFFF)], none) := by
  decide

/-- Row 7: `D = B`, the pointer is used and then overwritten. -/
theorem test_readMem_over_its_pointer :
    after (.readMem 10 3 10) [(10, 100), (103, 42)] = some ([(10, 42), (103, 42)], none) := by decide

/-- Row 10: the sum does not wrap. -/
theorem test_readMem_no_wrap :
    after (.readMem 10 1 20) [(0, 7), (10, 0xFFFFFFFFFFFFFFFF)] = some ([(0, 7), (10, 0xFFFFFFFFFFFFFFFF)], none) := by
  decide

/-- Row 13: an unwritten source copies 0. -/
theorem test_writeMem_zero : after (.writeMem 20 21) [(21, 9)] = some ([], none) := by decide

/-- Row 14: no indirection. -/
theorem test_writeMem_direct :
    after (.writeMem 20 21) [(20, 100), (100, 5)] = some ([(20, 100), (21, 100), (100, 5)], none) := by decide

/-- Row 15: the source's S5. -/
theorem test_notMem_complement :
    after (.notMem 10 3 20) [(10, 100), (103, 42)] = some ([(10, 100), (20, 0xFFFFFFFFFFFFFFD5), (103, 42)], none) := by
  decide

/-- Row 18: in place. -/
theorem test_notMem_in_place :
    after (.notMem 10 0 100) [(10, 100), (100, 0x0123456789ABCDEF)] =
      some ([(10, 100), (100, 0xFEDCBA9876543210)], none) := by decide

/-! ### The step -/

/-- A state that runs `p` from its start over `m`. -/
def ready (p : List MachineInstruction) (m : Memory) : State := startOver p none m

/-- R163: effect and increments. -/
theorem test_step : nextOf (step (ready [loaded1] [])) =
    some { pc := 1, steps := 1, budget := none, program := [loaded1], mem := [(10, 100)], error := none } := by decide

/-- `HALT` as a hand-built Machine Instruction (R152 (a)), and `READ_MEM` without `D` (R152 (d)). -/
def halt : MachineInstruction := { definition := ⟨"HALT", 9, []⟩, fields := [], raw := 9 }
def short : MachineInstruction := { definition := schema[1], fields := [("B", 1), ("C", 2)], raw := 2 }

/-- R152 (a), R194: Faulted, with `pc`, `steps` and Memory as before. -/
theorem test_unsupported_mnemonic : nextOf (step (ready [halt] [(1, 1)])) =
    some { ready [halt] [(1, 1)] with error := some (.unsupportedInstruction "HALT") } := by decide

theorem test_missing_field : step (ready [short] []) = .refused (.missingField "READ_MEM" "D") := rfl

/-- The terminal states (R164; the end is tested before the budget, C3). -/
theorem test_terminal_states :
    runState (startOver [] (some 0) []) = .halted ∧ runState (startOver [loaded1] (some 0) []) = .suspendedByBudget ∧
    runState State.reset = .halted ∧ runState { ready [halt] [] with error := some (.unsupportedInstruction "HALT") } = .faulted := by
  decide

/-- V-RUN row 10 and row 8. -/
theorem test_run_ends :
    run [loaded1] (some 1) = .ok { stepsExecuted := 1, halted := true } [(10, 100)] ∧
    run [] (some 0) = .ok { stepsExecuted := 0, halted := true } [] := by decide

/-- The chain of R175 on one instruction, and a failure in its first stage. -/
theorem test_chain :
    runProgram [⟨"load_const", [("B", 100), ("C", 10)]⟩] none 9 10 =
      .ok { stepsExecuted := 1, halted := true } [(9, 0), (10, 100)] ∧
    runProgram [⟨"JMP", []⟩] none 9 10 = .err ⟨.unknownMnemonic "JMP", some 0⟩ := by decide

/-- R187: a rejected range leaves the run's result as it is. -/
theorem test_chain_with_a_bad_range :
    runProgram [⟨"load_const", [("B", 100), ("C", 10)]⟩] none 4 2 =
      .dumpFailed { stepsExecuted := 1, halted := true } (.invalidRange 4 2) := by decide

/-- A word placed in the reset state runs next: V-ENC rows 1 and 17; a word that does not decode is not placed. -/
theorem test_withFetchWord :
    (nextOf (step (State.reset.withFetchWord 112 0x0000000001400000000000000C81))).map (·.mem) = some [(10, 100)] ∧
    (nextOf (step (State.reset.withFetchWord 112 0x0000000000000280006000000144))).map (·.mem) =
      some [(20, 0xFFFFFFFFFFFFFFFF)] ∧
    State.reset.withFetchWord 112 5 = State.reset := by decide

/-- D16: the codes in the order of R180. -/
theorem test_error_codes :
    [MachineError.schemaError [] [], .rangeError "B" 1 2, .unknownMnemonic "", .unknownOpcode 0, .invalidAddress (-1),
      .invalidRange 1 0, .malformedBinary 1, .unsupportedInstruction ""].map MachineError.code =
      [1, 2, 3, 4, 5, 6, 7, 8] := by decide

/-! ### A witness for the hypotheses of each obligation

Each theorem is named after the obligation whose hypotheses it meets, all of them together, at values on the edge of their
ranges where they have one. -/

/-- A mapping whose keys are the declared names of the row that declares `B`, `C` and `D`. -/
theorem keys_of {values : FieldMap} {d : InstructionDefinition} (h : values.map Prod.fst = d.names) :
    ∀ n, n ∈ d.names ↔ values.lookup n ≠ none := fun n => by
  rw [Ne, lookup_eq_none_iff, not_not, h]

/-- All fields at their masks: V-ENC row 9. -/
def top : FieldMap := [("B", 0xFFFFFFFF), ("C", 65535), ("D", 0xFFFFFFFF)]
def topWord : InstrWord := 0x0000001FFFFFFFFFFFFFFFFFFFE2
def topDecoded : MachineInstruction := { definition := schema[1], fields := top, raw := topWord }

theorem witness_DecodeEncodeAgree :
    Instr.wellFormed (.loadConst (2 ^ 64 - 1) (2 ^ 32 - 1)) = true ∧ Instr.wellFormed (.readMem 0 65535 (2 ^ 32 - 1)) = true ∧
    Instr.wellFormed (.writeMem (2 ^ 32 - 1) 0) = true ∧ Instr.wellFormed (.notMem (2 ^ 32 - 1) 0 0) = true := by decide

theorem witness_ExtractUndoesEncode : schema[1].wellFormed = true ∧ (∀ n, top.lookup n ≠ none → n ∈ schema[1].names) ∧
    ∀ f ∈ schema[1].orderedFields, ∃ v, top.lookup f.name = some v ∧ 0 ≤ v ∧ v ≤ (f.mask : Int) := by
  refine ⟨by decide, fun n => (keys_of (d := schema[1]) rfl n).2, fun f hf => ⟨f.mask, ?_, by simp, le_rfl⟩⟩
  simp only [schema, List.getElem_cons_succ, List.getElem_cons_zero, List.mem_cons, List.not_mem_nil, or_false] at hf
  rcases hf with rfl | rfl | rfl <;> rfl

theorem witness_DecodeOfEncodedWord :
    schema.wellFormed = true ∧ schema[1] ∈ schema ∧ schema[1].encode top = .ok topWord := by decide

theorem witness_EncodeOfDecodedWordIsCanonical : schema.wellFormed = true ∧ decodeWordIn schema topWord = .ok topDecoded := by
  decide

/-- V-ENC row 7 and V-DEC row 9. -/
theorem witness_UnusedBitsAreIgnored :
    schema.wellFormed = true ∧ decodeWordIn schema 0x0000000000000280006000000142 = .ok loaded7 ∧
    ∀ j, (j < 5 ∨ ∃ f ∈ loaded7.definition.orderedFields, f.startBit ≤ j ∧ j ≤ f.endBit) →
      (0xFFFFFFE000000280006000000142 : InstrWord).toNat.testBit j =
        (0x0000000000000280006000000142 : InstrWord).toNat.testBit j := by
  have low : ∀ j < 85, (0xFFFFFFE000000280006000000142 : InstrWord).toNat.testBit j =
      (0x0000000000000280006000000142 : InstrWord).toNat.testBit j := by decide
  have last : ∀ f ∈ loaded7.definition.orderedFields, f.endBit < 85 := by decide
  refine ⟨by decide, by decide, ?_⟩
  rintro j (h | ⟨f, hf, -, h⟩)
  · exact low j (by omega)
  · exact low j (by have := last f hf; omega)

/-- Both clauses, at the opcodes on the edge of the table's. -/
theorem witness_DecodeFailsOnlyInTheOpcodeLookup :
    (∃ d ∈ schema, d.opcode = (1 : InstrWord).toNat % 32) ∧ (∃ d ∈ schema, d.opcode = (4 : InstrWord).toNat % 32) ∧
    (∀ d ∈ schema, d.opcode ≠ (0 : InstrWord).toNat % 32) ∧ (∀ d ∈ schema, d.opcode ≠ (5 : InstrWord).toNat % 32) ∧
    decodeWordIn schema 31 = .error (.unknownOpcode 31) := by decide

theorem witness_ExtractIsTotalAndInRange :
    (⟨"D", 53, 84⟩ : FieldDefinition) ∈ schema[1].orderedFields ∧ schema[1].names.Nodup := by decide

theorem witness_SerialisationIsABijection : row1.length = 14 := rfl

/-- `j` outside opcode and fields too: bit 85. -/
theorem witness_EncodedWordsAreCanonical : schema[1].wellFormed = true ∧ schema[1].encode top = .ok topWord ∧
    ∀ f ∈ schema[1].orderedFields, ¬ (f.startBit ≤ 85 ∧ 85 ≤ f.endBit) := by decide

theorem witness_EncodeIsInjective : schema.wellFormed = true ∧ schema[1] ∈ schema ∧ schema[1].encode top = .ok topWord ∧
    schema[1].encode top.reverse = .ok topWord := by decide

theorem witness_SchemaErrorExactlyOnKeyMismatch :
    schema[1].encode [("B", 1), ("C", 2), ("E", 3)] = .error (.schemaError ["D"] ["E"]) := by decide

/-- The keys are right; a value one above its mask, then all in range. -/
theorem witness_RangeErrorNamesTheFirstBadField :
    (∀ n, n ∈ schema[1].names ↔ List.lookup n [("B", (0 : Int)), ("C", 65536), ("D", 0)] ≠ none) ∧
    schema[1].encode [("B", 0), ("C", 65536), ("D", 0)] = .error (.rangeError "C" 16 65536) ∧
    ∀ n, n ∈ schema[1].names ↔ top.lookup n ≠ none :=
  ⟨keys_of rfl, by decide, keys_of rfl⟩

theorem witness_MnemonicLookupFoldsAsciiCase :
    ('a' ≤ 'a' ∧ 'a' ≤ 'z') ∧ ('a' ≤ 'z' ∧ 'z' ≤ 'z') ∧ ¬ ('a' ≤ '`' ∧ '`' ≤ 'z') ∧ ¬ ('a' ≤ Char.ofNat 123 ∧ Char.ofNat 123 ≤ 'z') ∧
    schema.wellFormed = true ∧ lookupMnemonicIn schema "not_mem" = .ok schema[3] ∧
    ∀ d ∈ schema, d.mnemonic ≠ upper "jmp" := by decide

theorem witness_EncoderRaisesExactlyThreeErrors :
    encodeProgramIn schema [⟨"JMP", []⟩] = .error ⟨.unknownMnemonic "JMP", some 0⟩ := by decide

/-- V-LOAD rows 6 and 4: one blob of each length. -/
theorem witness_MalformedBinaryExactlyOnBadLength :
    loadIn schema (List.replicate 14 0) = .error ⟨.unknownOpcode 0, some 0⟩ ∧ (List.replicate 14 (0 : Byte)).length % 14 = 0 ∧
    (row1 ++ [0]).length % 14 ≠ 0 := by decide

/-- Each clause: a bad length, a blob that loads, and a blob whose last chunk fails. -/
theorem witness_LoadDecodesChunksInOrder :
    (row1 ++ [0]).length % 14 ≠ 0 ∧ (row1 ++ row7).length % 14 = 0 ∧ loadIn schema (row1 ++ row7) = .ok [loaded1, loaded7] ∧
    (row1 ++ 0x1F :: List.replicate 13 0).length % 14 = 0 ∧
    loadIn schema (row1 ++ 0x1F :: List.replicate 13 0) = .error ⟨.unknownOpcode 31, some 1⟩ := by decide

theorem witness_EncodedProgramsLoad : schema.wellFormed = true ∧
    encodeProgramIn schema [⟨"load_const", [("B", 100), ("C", 10)]⟩] = .ok [0x0000000001400000000000000C81] := by decide

theorem witness_LoadWritesTheProgramStoreOnly :
    loadInto row1 (holding [(1, 2)]) = .ok { holding [(1, 2)] with program := [loaded1] } := by decide

theorem witness_NeverWrittenAddressesReadZero :
    (-1 : Int) < 0 ∧ 8 ∉ [(7, (9 : Word)), (9, 1)].map Prod.fst := by decide

theorem witness_WritesReduceTheirValue : Memory.wf [(7, 9)] = true ∧ ((8 : Nat) ≠ 7) := by decide

theorem witness_NegativeValuesMaskToTwosComplement :
    (holding [(7, 9)]).mem.wf = true ∧ (0 : Int) ≤ 0 ∧ (-1 : Int) < 0 := by decide

/-- Two histories that leave the same words: one wrote 7 and erased it, the other never did. -/
theorem witness_MemoryIsItsContents :
    ∀ a, (writesToFresh [(7, 9), (7, 0)]).word a = (writesToFresh []).word a := fun _ => rfl

/-- Both clauses: the one-address range at 0, and each way of failing. -/
theorem witness_DumpListsEveryAddressOfTheRange :
    ((0 : Int) ≤ 0 ∧ (0 : Int) ≤ 0) ∧ ¬ ((0 : Int) ≤ 1 ∧ (1 : Int) ≤ 0) ∧ ¬ ((0 : Int) ≤ -1 ∧ (-1 : Int) ≤ 0) := by decide

/-- V-EXEC row 4's Memory. -/
def example4 : State := holding [(10, 100), (103, 42)]

theorem witness_LoadConstStoresItsConstant : example4.mem.wf = true ∧ (0 : Int) ≤ 0 := by decide

/-- An offset of 3, and a hand-built one that takes the sum to 0. -/
theorem witness_ReadMemLoadsThroughThePointer :
    example4.mem.wf = true ∧ (0 : Int) ≤ 10 ∧ 0 ≤ ((example4.mem.word (10 : Int).toNat).toNat : Int) + 3 ∧
    0 ≤ ((example4.mem.word (10 : Int).toNat).toNat : Int) + (-100) ∧ (0 : Int) ≤ 20 := by decide

theorem witness_WriteMemCopiesDirectly : example4.mem.wf = true ∧ (0 : Int) ≤ 10 ∧ (0 : Int) ≤ 0 := by decide

theorem witness_NotMemStoresTheComplement :
    example4.mem.wf = true ∧ (0 : Int) ≤ 10 ∧ 0 ≤ ((example4.mem.word (10 : Int).toNat).toNat : Int) + 3 ∧
    0 ≤ ((example4.mem.word (10 : Int).toNat).toNat : Int) + (-100) ∧ (0 : Int) ≤ 20 := by decide

/-- A sum just below 2^64. -/
theorem witness_OneLevelOfIndirection :
    (holding [(10, 0xFFFFFFFFFFFFFFFE)]).mem.wf = true ∧
    ((holding [(10, 0xFFFFFFFFFFFFFFFE)]).mem.word 10).toNat + 1 < 2 ^ 64 := by decide

/-- Each clause at -1 and 0: the constant's address; the copy's source and destination; the pointer's address, the sum
and the destination of the other two. -/
theorem witness_NegativeAddressesRaiseInvalidAddress :
    (-1 : Int) < 0 ∧ (0 : Int) ≤ 0 ∧ ((example4.mem.word (10 : Int).toNat).toNat : Int) + (-101) < 0 ∧
    0 ≤ ((example4.mem.word (10 : Int).toNat).toNat : Int) + (-100) ∧
    after (.loadConst 5 (-1)) [] = some ([], some (.invalidAddress (-1))) ∧
    after (.writeMem (-1) (-2)) [] = some ([], some (.invalidAddress (-1))) ∧
    after (.writeMem 0 (-1)) [] = some ([], some (.invalidAddress (-1))) ∧
    after (.readMem (-1) 0 (-2)) [] = some ([], some (.invalidAddress (-1))) ∧
    after (.readMem 10 (-101) (-2)) example4.mem = some (example4.mem, some (.invalidAddress (-1))) ∧
    after (.notMem 10 (-100) (-1)) example4.mem = some (example4.mem, some (.invalidAddress (-1))) := by
  refine ⟨?_, ?_, ?_, ?_, ?_, ?_, ?_, ?_, ?_, ?_⟩ <;> decide

theorem witness_InstructionsChangeAtMostTheirDestination :
    example4.mem.wf = true ∧ ((103 : Nat) : Int) ≠ destination (.readMem 10 3 20) := by decide

theorem witness_DecodedInstructionsRaiseNoError : decodeWord topWord = .ok topDecoded := by decide

theorem witness_ComplementTwiceInPlaceRestores :
    example4.mem.wf = true ∧ (0 : Int) ≤ 10 ∧ (0 : Int) ≤ 103 ∧
    (103 : Int) = ((example4.mem.word (10 : Int).toNat).toNat : Int) + 3 ∧ (103 : Int) ≠ 10 := by decide

/-- The second of two instructions, as the last step that budget 2 allows. -/
def second : State := { pc := 1, steps := 1, budget := some 2, program := [loaded1, loaded7], mem := [(10, 100)], error := none }

theorem witness_StepRunsTheDecodedInstruction :
    load (row1 ++ row7) = .ok second.program ∧ second.error = none ∧ second.pc < second.program.length ∧
    (∀ n, second.budget = some n → second.steps < n) ∧
    decodeBytes (((row1 ++ row7).drop (14 * second.pc)).take 14) = .ok (.readMem 10 3 20) :=
  ⟨by decide, rfl, by decide, by rintro n ⟨⟩; decide, by decide⟩

/-- Both clauses: an effect, and a hand-built instruction that raises an error. -/
def broken : MachineInstruction := { definition := schema[2], fields := [("B", 0), ("C", -1)], raw := 3 }

theorem witness_StepRunsTheFetchedInstruction :
    (enabled second = true ∧ second.program[second.pc]? = some loaded7 ∧ loaded7.dispatch = .ok (.readMem 10 3 20) ∧
      ∃ t, exec (.readMem 10 3 20) second = .next t ∧ t.error = none) ∧
    (enabled (ready [broken] []) = true ∧ (ready [broken] []).program[0]? = some broken ∧ broken.dispatch = .ok (.writeMem 0 (-1)) ∧
      ∃ t, exec (.writeMem 0 (-1)) (ready [broken] []) = .next t ∧ t.error ≠ none) :=
  ⟨⟨by decide, by decide, by decide, _, rfl, rfl⟩, ⟨by decide, by decide, by decide, _, rfl, by decide⟩⟩

theorem witness_PlacedWordRunsNext :
    decodeTableWord 112 0x0000000000000280006000000144 = some (.notMem 10 3 20) := by decide

/-- Running and the three ways not to be. -/
theorem witness_StepEnabledExactlyWhenRunning :
    runState second = .running ∧ runState (ready [short] []) = .running ∧ runState { second with pc := 2 } ≠ .running ∧
    runState { second with steps := 2 } ≠ .running ∧ runState { second with error := some (.invalidAddress (-1)) } ≠ .running := by
  decide

/-- Each clause: an error, the end reached together with the budget, the budget reached before the end. -/
theorem witness_RunsEndHaltedOrSuspended :
    (runState { second with error := some (.invalidAddress (-1)) } ≠ .running) ∧
    (runState { second with pc := 2, steps := 2 } ≠ .running ∧ second.error = none ∧ second.program.length ≤ 2) ∧
    (runState { second with steps := 2 } ≠ .running ∧ second.pc < second.program.length) := by decide

theorem witness_TerminalStatesStopByName :
    runState { second with pc := 2, steps := 2 } = .halted ∧ runState { second with steps := 2 } = .suspendedByBudget ∧
    ({ second with error := some (.invalidAddress (-1)) } : State).error = some (.invalidAddress (-1)) := by decide

/-- The state after the step from `second`: `mem[103]` is 0, so 0 is stored at 20. -/
theorem second_steps : step second = .next { second with pc := 2, steps := 2 } := next_of (by decide)

theorem witness_StepKeepsTheInvariants : Inv second ∧ step second = .next { second with pc := 2, steps := 2 } :=
  ⟨⟨by decide, rfl, by decide, by rintro b ⟨⟩; decide, fun h => absurd rfl h⟩, second_steps⟩

theorem second_loaded : Loaded second := by
  intro mi h
  simp only [second, List.mem_cons, List.not_mem_nil, or_false] at h
  rcases h with rfl | rfl <;> decide

theorem witness_LoadedProgramsNeverFault : Loaded second ∧ second.error = none ∧ runState second = .running ∧
    step second = .next { second with pc := 2, steps := 2 } :=
  ⟨second_loaded, rfl, by decide, second_steps⟩

theorem witness_HighMemoryStaysZero : Loaded second ∧ second.mem.wf = true ∧ HighMemoryZero second ∧
    step second = .next { second with pc := 2, steps := 2 } := by
  refine ⟨second_loaded, by decide, fun a ha => ?_, second_steps⟩
  have : ¬ 10 = a := by simp only [Config.addressBits] at ha; omega
  simp [second, Memory.word_cons, this]

/-- Each clause; the last with the first index below `j`. -/
theorem witness_EveryInstructionIsFollowedByTheNext :
    (∃ t, exec (.readMem 10 3 20) second = .next t) ∧
    (step second = .next { second with pc := 2, steps := 2 } ∧ ({ second with pc := 2, steps := 2 } : State).error = none) ∧
    ((0 < 1) ∧ ∃ t, stepsTo 1 (startOver [loaded1] none [(1, 1)]) t ∧ t.error = none) :=
  ⟨⟨_, rfl⟩, ⟨second_steps, rfl⟩, by decide, _, ⟨_, next_of rfl, rfl⟩, rfl⟩

theorem witness_ErrorsArePrecise :
    step (ready [broken] []) = .next { ready [broken] [] with error := some (.invalidAddress (-1)) } := next_of (by decide)

/-- Each clause: the foreign mnemonic fetched after a hand-built instruction, as the last step of its budget; the same after
one loaded instruction, with the least budget that reaches it; and a loaded program. -/
theorem witness_UnsupportedMnemonicIsFatal :
    (enabled { second with program := [broken, halt] } = true ∧ [broken, halt][second.pc]? = some halt) ∧
    (∀ x ∈ [loaded1], decodeWord x.raw = .ok x) ∧
    halt.definition.mnemonic ∉ ["LOAD_CONST", "READ_MEM", "WRITE_MEM", "NOT_MEM"] ∧
    (∀ b, some 2 = some b → [loaded1].length < b) ∧ load row1 = .ok [loaded1] :=
  ⟨by decide, by decide, by decide, by rintro b ⟨⟩; decide, by decide⟩

/-- Both clauses: a field missing, and none missing. -/
theorem witness_MissingFieldIsRefused :
    (enabled (ready [short] []) = true ∧ (ready [short] []).program[0]? = some short ∧
      (short.definition.mnemonic, ["B", "C", "D"]) ∈ Schema.sourceNames ∧ ∃ f ∈ ["B", "C", "D"], short.fields.lookup f = none) ∧
    (enabled second = true ∧ second.program[second.pc]? = some loaded7 ∧
      (loaded7.definition.mnemonic, ["B", "C", "D"]) ∈ Schema.sourceNames ∧
      ∀ f ∈ ["B", "C", "D"], loaded7.fields.lookup f ≠ none) := by decide

theorem witness_RunClosedForm : ∀ mi ∈ [loaded1, loaded7], decodeWord mi.raw = .ok mi := by decide

/-- A run that halts and one that its budget stops before the first step. -/
theorem witness_ExecutionResultMeansWhatItSays :
    run [loaded1] (some 1) = .ok { stepsExecuted := 1, halted := true } [(10, 100)] ∧
    run [loaded1] (some 0) = .ok { stepsExecuted := 0, halted := false } [] := by decide

/-- One step within budget 1, under no budget and under an equal one. -/
theorem witness_SmallerBudgetsRunAPrefix :
    1 ≤ 1 ∧ (∀ b, (none : Option Nat) = some b → 1 ≤ b) ∧ (∀ b, some 1 = some b → 1 ≤ b) ∧
    ∃ t, stepsTo 1 (startOver [loaded1] (some 1) []) t :=
  ⟨le_rfl, by rintro b ⟨⟩, by rintro b ⟨⟩; decide, _, _, next_of rfl, rfl⟩

theorem witness_RunsTakeAtMostTheProgramsLength : ∃ t, stepsTo 1 (startOver [loaded1] none [(1, 1)]) t :=
  ⟨_, _, next_of rfl, rfl⟩

/-- Each of the two errors. -/
theorem witness_RunsRaiseOnlyTwoErrors :
    runFrom [broken] none [] = .err (.invalidAddress (-1)) ∧ runFrom [halt] (some 1) [] = .err (.unsupportedInstruction "HALT") := by
  decide

/-- Both clauses, with a one-address dump. -/
theorem witness_EncodedProgramsRunEndToEnd :
    (0 : Int) ≤ 0 ∧
    encodeProgram [⟨"load_const", [("B", 100), ("C", 10)]⟩] = .ok [0x0000000001400000000000000C81] ∧
    encodeProgram [⟨"JMP", []⟩] = .error ⟨.unknownMnemonic "JMP", some 0⟩ := by decide

/-- Both clauses, with each way to be no range: reversed by one, and a negative start. -/
theorem witness_InvalidDumpRangeKeepsTheResult :
    ¬ ((0 : Int) ≤ 1 ∧ (1 : Int) ≤ 0) ∧ ¬ ((0 : Int) ≤ -1 ∧ (-1 : Int) ≤ 0) ∧
    encodeProgram [⟨"load_const", [("B", 100), ("C", 10)]⟩] = .ok [0x0000000001400000000000000C81] ∧
    encodeProgram [⟨"JMP", []⟩] = .error ⟨.unknownMnemonic "JMP", some 0⟩ := by decide

end Sys2Proof.Tests
end

section
/-! Every step keeps the engine's invariants (spec/10_state.md R21, R23, R24; spec/60_exceptions.md R194). -/

namespace Sys2Proof.Machine

/-- Retiring an instruction in an enabled state: in bounds and below the cap, both counters have room for one more. -/
theorem inv_advance {s : State} (hi : Inv s) (hen : enabled s = true) {m : Memory} (hm : m.wf = true) :
    Inv (advance { s with mem := m }) := by
  obtain ⟨herr, hbound, hcap⟩ := (enabled_iff s).1 hen
  exact
    { mem := hm
      counters := congrArg (· + 1) hi.counters
      bound := Nat.succ_le_of_lt ((inBounds_iff s).1 hbound)
      cap := fun b hb => Nat.succ_le_of_lt ((budgetAllows_iff s).1 hcap b hb)
      precise := fun h => absurd herr h }

/-- Recording an error in an enabled state: the counters stay at the faulting instruction, so the error is precise. -/
theorem inv_recordError {s : State} (hi : Inv s) (hen : enabled s = true) (e : MachineError) :
    Inv { s with error := some e } := by
  obtain ⟨-, hbound, hcap⟩ := (enabled_iff s).1 hen
  exact { mem := hi.mem, counters := hi.counters, bound := hi.bound, cap := hi.cap, precise := fun _ => ⟨hbound, hcap⟩ }

theorem step_keeps_inv {s t : State} (hi : Inv s) (h : step s = .next t) : Inv t := by
  obtain ⟨hen, _, -, -, ⟨i, v, -, -, -, rfl⟩ | ⟨e, -, rfl⟩⟩ := step_next h
  · exact inv_advance hi hen (Memory.wf_put hi.mem _ v)
  · exact inv_recordError hi hen e

/-- Settles O45: the invariants through the two ways a step can end, retirement and a recorded error. -/
theorem stepKeepsTheInvariants : Obligations.StepKeepsTheInvariants := fun _ _ => step_keeps_inv

end Sys2Proof.Machine
end

section
/-! A written Memory is its contents (spec/10_state.md R31). -/

namespace Sys2Proof.Machine

/-- Writes to a fresh Memory leave it canonical (R44; log 2). -/
theorem wf_writesToFresh (ws : List (Nat × Word)) : (writesToFresh ws).wf = true :=
  List.foldlRecOn ws _ (motive := fun m : Memory => m.wf = true) rfl fun _ hm c _ => Memory.wf_put hm c.1 c.2

/-- Settles O26: both Memories are canonical, and canonical Memories are equal where their words are. -/
theorem memoryIsItsContents : Obligations.MemoryIsItsContents := fun ws ws' h =>
  Memory.ext (wf_writesToFresh ws) (wf_writesToFresh ws') h

end Sys2Proof.Machine
end

section
/-! What a run that delivers a result ended in, and what its Execution Result then says (spec/10_state.md R33;
spec/43_engine_harness.md R165). -/

namespace Sys2Proof.Machine

theorem inv_startOver (p : List MachineInstruction) (n : Option Nat) {m : Memory} (hm : m.wf = true) :
    Inv (startOver p n m) where
  mem := hm
  counters := rfl
  bound := Nat.zero_le _
  cap _ _ := Nat.zero_le _
  precise h := absurd rfl h

/-- No step writes the program store or the budget (R24, R26). -/
theorem step_keeps_program_budget {s t : State} (h : step s = .next t) : t.program = s.program ∧ t.budget = s.budget := by
  obtain ⟨-, _, -, -, ⟨i, v, -, -, -, rfl⟩ | ⟨e, -, rfl⟩⟩ := step_next h <;> exact ⟨rfl, rfl⟩

/-- A step that records no error moves `pc` on by one (R163). -/
theorem step_pc {s t : State} (h : step s = .next t) (he : t.error = none) : t.pc = s.pc + 1 := by
  obtain ⟨-, _, -, -, ⟨i, v, -, -, -, rfl⟩ | ⟨e, -, rfl⟩⟩ := step_next h
  · rfl
  · cases he

/-- What every step keeps holds after any number of steps. -/
theorem stepsTo_keeps {P : State → Prop} (hP : ∀ s t, P s → step s = .next t → P t) {j : Nat} {s t : State} (hs : P s)
    (h : stepsTo j s t) : P t := by
  induction j generalizing s with
  | zero => exact h ▸ hs
  | succ j ih =>
    obtain ⟨u, hu, hut⟩ := h
    exact ih (hP s u hs hu) hut

/-- A delivered result: no error is recorded, and the result and the Memory are the state's own (R165). -/
theorem deliver_ok {s : State} {r : ExecutionResult} {m : Memory} :
    deliver s = .ok r m ↔ s.error = none ∧ executionResult s = r ∧ s.mem = m := by
  rw [deliver]
  cases s.error <;> simp

theorem step_fault_not_enabled {s : State} {f : Fault} (h : step s = .fault f) : enabled s = false := by
  rw [Bool.eq_false_iff, ne_eq, ← terminalFault_none, step_fault.1 h]
  exact Option.some_ne_none f

/-- `t` is where a run from `s` ends without an error: reached from `s` by steps, and no step is enabled there (R164). -/
structure EndsIn (s t : State) : Prop where
  reached : ∃ j, stepsTo j s t
  noError : t.error = none
  terminal : enabled t = false

theorem EndsIn.refl {s : State} (he : s.error = none) (ht : enabled s = false) : EndsIn s s := ⟨⟨0, rfl⟩, he, ht⟩

theorem EndsIn.of_step {s u t : State} (hu : step s = .next u) (h : EndsIn u t) : EndsIn s t := by
  obtain ⟨j, hj⟩ := h.reached
  exact ⟨⟨j + 1, u, hu, hj⟩, h.noError, h.terminal⟩

/-- The loop, given a step for each instruction from `pc` on, delivers a result only from a terminal state (R165, R169).
A recorded error leaves `pc` as it is, so the hypothesis on the fuel is asked for where there is none. -/
theorem runLoop_ok {k : Nat} {s : State} {r : ExecutionResult} {m : Memory}
    (hk : s.error = none → s.program.length ≤ s.pc + k) (h : runLoop k s = .ok r m) :
    ∃ t, EndsIn s t ∧ executionResult t = r ∧ t.mem = m := by
  induction k generalizing s with
  | zero =>
    obtain ⟨he, hr⟩ := deliver_ok.1 h
    have hout : ¬ inBounds s = true := fun hb => absurd ((inBounds_iff s).1 hb) (Nat.not_lt.2 (hk he))
    exact ⟨s, .refl he (Bool.eq_false_iff.2 fun hen => hout ((enabled_iff s).1 hen).2.1), hr⟩
  | succ k ih =>
    rw [runLoop] at h
    cases hs : step s with
    | next u =>
      rw [hs] at h
      have hku : u.error = none → u.program.length ≤ u.pc + k := fun hu => by
        have herr := ((enabled_iff s).1 (step_next hs).1).1
        rw [(step_keeps_program_budget hs).1, step_pc hs hu, Nat.add_assoc, Nat.add_comm 1]
        exact hk herr
      obtain ⟨t, hend, hr⟩ := ih hku h
      exact ⟨t, hend.of_step hs, hr⟩
    | fault f =>
      rw [hs] at h
      obtain ⟨he, hr⟩ := deliver_ok.1 h
      exact ⟨s, .refl he (step_fault_not_enabled hs), hr⟩
    | refused f =>
      rw [hs] at h
      cases h

/-- A run delivers a result only from a terminal state that it reaches without an error (R165, R172). -/
theorem runFrom_ok {p : List MachineInstruction} {n : Option Nat} {m₀ m : Memory} {r : ExecutionResult}
    (h : runFrom p n m₀ = .ok r m) : ∃ t, EndsIn (startOver p n m₀) t ∧ executionResult t = r ∧ t.mem = m :=
  runLoop_ok (fun _ => by simp) h

/-- The invariants hold where a run ends, and its program and budget are still those it was started with. -/
theorem EndsIn.inv {p : List MachineInstruction} {n : Option Nat} {m : Memory} {t : State} (hm : m.wf = true)
    (h : EndsIn (startOver p n m) t) : Inv t ∧ t.program = p ∧ t.budget = n := by
  obtain ⟨j, hj⟩ := h.reached
  refine stepsTo_keeps (P := fun t => Inv t ∧ t.program = p ∧ t.budget = n) ?_ ⟨inv_startOver p n hm, rfl, rfl⟩ hj
  rintro s u ⟨hi, hp, hn⟩ hs
  obtain ⟨hp', hn'⟩ := step_keeps_program_budget hs
  exact ⟨step_keeps_inv hi hs, hp'.trans hp, hn'.trans hn⟩

/-- `halted` says that the program's end is reached (R33). -/
theorem executionResult_halted (s : State) : (executionResult s).halted = true ↔ s.program.length ≤ s.pc := by
  simp [executionResult, inBounds]

/-- `halted = false` in a terminal state without an error: the budget is spent (R33, R164). -/
theorem Inv.budget_eq_steps {s : State} (hi : Inv s) (he : s.error = none) (ht : enabled s = false)
    (hh : (executionResult s).halted = false) : s.budget = some s.steps := by
  have hbound : inBounds s = true := by simpa [executionResult] using hh
  have hspent : ¬ ∀ b, s.budget = some b → s.steps < b := fun hb =>
    absurd ((enabled_iff s).2 ⟨he, hbound, (budgetAllows_iff s).2 hb⟩) (Bool.eq_false_iff.1 ht)
  push Not at hspent
  obtain ⟨b, hb, hle⟩ := hspent
  rw [hb, Nat.le_antisymm hle (hi.cap b hb)]

/-- Settles O53: the invariants at the terminal state, where the budget is spent unless the program's end is reached. -/
theorem executionResultMeansWhatItSays : Obligations.ExecutionResultMeansWhatItSays := by
  intro p n r m h
  obtain ⟨t, hend, rfl, -⟩ := runFrom_ok h
  obtain ⟨hi, rfl, rfl⟩ := hend.inv rfl
  have hsteps : (executionResult t).stepsExecuted = t.pc := hi.counters
  refine ⟨?_, hi.budget_eq_steps hend.noError hend.terminal, hsteps ▸ hi.bound, hi.cap⟩
  rw [executionResult_halted, hsteps]
  exact ⟨Nat.le_antisymm hi.bound, Eq.ge⟩

end Sys2Proof.Machine
end

section
/-! The two cases of a read after a write to a canonical Memory (spec/20_memory.md R44). -/

namespace Sys2Proof.Machine

theorem Memory.word_put_same {m : Memory} (hm : m.wf = true) (a : Nat) (x : Word) : (m.put a x).word a = x := by
  rw [Memory.word_put hm, if_pos rfl]

theorem Memory.word_put_other {m : Memory} (hm : m.wf = true) {a b : Nat} (hb : b ≠ a) (x : Word) :
    (m.put a x).word b = m.word b := by
  rw [Memory.word_put hm, if_neg hb]

end Sys2Proof.Machine
end

section
/-! What a loaded program's steps leave alone: no address that a 32-bit field cannot name is written
(spec/20_memory.md R50; spec/42_execute_instructions.md R145). -/

namespace Sys2Proof.Machine

/-- An instruction of a loaded program stores at an address that its 32-bit field names (R50; D2, log 10). -/
theorem destination_lt_of_loaded {s : State} (hl : Loaded s) {mi : MachineInstruction} (hmi : mi ∈ s.program)
    {i : Instr} (hi : mi.dispatch = .ok i) : (destination i).toNat < 2 ^ Config.addressBits := by
  obtain ⟨j, hj, hwf⟩ := decodeWord_dispatch (hl mi hmi)
  obtain rfl : i = j := Except.ok.inj (hi.symm.trans hj)
  obtain ⟨_, -, hlt, -⟩ := exec_wellFormed hwf s
  exact hlt

/-- A word stored at a 32-bit address leaves high Memory zero. -/
theorem highMemoryZero_put {s : State} (hm : s.mem.wf = true) (hz : HighMemoryZero s) {a : Nat}
    (ha : a < 2 ^ Config.addressBits) (v : Word) : HighMemoryZero { s with mem := s.mem.put a v } := fun x hx =>
  (Memory.word_put_other hm (ha.trans_le hx).ne' v).trans (hz x hx)

/-- Settles O47: a step stores at most one word, at a 32-bit address; the counters and a recorded error are no Memory. -/
theorem highMemoryStaysZero : Obligations.HighMemoryStaysZero := by
  intro s t hl hm hz h
  obtain ⟨-, mi, -, hmi, ⟨i, v, hi, -, -, rfl⟩ | ⟨e, -, rfl⟩⟩ := step_next h
  · exact highMemoryZero_put hm hz (destination_lt_of_loaded hl hmi hi) v
  · exact hz

end Sys2Proof.Machine
end

section
/-! The primitives `read`, `write` and `dump` (spec/20_memory.md R43 to R46). -/

namespace Sys2Proof.Machine

/-! ### `read` and `write` -/

/-- `v & WORD_MASK` is `v mod 2^64`, for negative values too (R44, R45; G1, log 16). -/
theorem toNat_maskWord (v : Int) : ((maskWord v).toNat : Int) = v % 2 ^ 64 := by
  rw [maskWord, BitVec.toNat_ofInt]
  omega

theorem memRead_natCast (m : Memory) (a : Nat) : memRead m a = .ok (m.word a) := memRead_nat m (Int.natCast_nonneg a)

/-- An address that no write names keeps the 0 of a fresh Memory (R41, R43). -/
theorem word_writesToFresh_of_notMem {ws : List (Nat × Word)} {a : Nat} (ha : a ∉ ws.map Prod.fst) :
    (writesToFresh ws).word a = 0 := by
  refine (List.foldlRecOn ws _ (motive := fun m : Memory => m.wf = true ∧ m.word a = 0) ⟨rfl, rfl⟩ ?_).2
  rintro m ⟨hm, h0⟩ c hc
  have hne : a ≠ c.1 := fun e => ha (e ▸ List.mem_map_of_mem hc)
  exact ⟨Memory.wf_put hm c.1 c.2, (Memory.word_put_other hm hne c.2).trans h0⟩

/-- Settles O22: the address check of `read`, and what writes to other addresses leave alone. -/
theorem neverWrittenAddressesReadZero : Obligations.NeverWrittenAddressesReadZero := by
  refine ⟨fun m _ => memRead_neg m, fun ws a ha => ?_⟩
  rw [memRead_natCast, word_writesToFresh_of_notMem ha]

/-- Settles O23: the write puts the masked value, read back at its own address and nowhere else. -/
theorem writesReduceTheirValue : Obligations.WritesReduceTheirValue := by
  intro m a v hm
  refine ⟨_, memWrite_nat m (Int.natCast_nonneg a) v, Memory.wf_put hm .., ⟨_, memRead_natCast _ a, ?_⟩, fun x hx => ?_⟩
  · rw [Int.toNat_natCast, Memory.word_put_same hm]
    exact_mod_cast toNat_maskWord v
  · rw [memRead_natCast, memRead_natCast, Int.toNat_natCast, Memory.word_put_other hm hx]

/-- `LOAD_CONST` is the write of its constant (R141). -/
theorem exec_loadConst_of_memWrite {b c : Int} {s : State} {m : Memory} (h : memWrite s.mem c b = .ok m) :
    exec (.loadConst b c) s = .next { s with mem := m } := by
  rw [exec, execLoadConst, h, commit_ok]

/-- Settles O24: masking takes the value modulo 2^64 whatever its sign, and `LOAD_CONST` is that write. -/
theorem negativeValuesMaskToTwosComplement : Obligations.NegativeValuesMaskToTwosComplement := by
  intro s a v hm ha _
  have hw := memWrite_nat s.mem ha v
  refine ⟨_, hw, ?_, exec_loadConst_of_memWrite hw⟩
  rw [Memory.word_put_same hm, toNat_maskWord]

/-- Settles O25: of the two outcomes of a `write`, the sign of the address selects one. -/
theorem writesRefuseNegativeAddresses : Obligations.WritesRefuseNegativeAddresses := by
  intro m a v
  rcases memWrite_cases m a v with ⟨ha, h⟩ | ⟨ha, h⟩
  · simp [h, ha]
  · simp [h, ha]

/-! ### `dump` -/

/-- What `dump` lists for a range: every address of it, in ascending order, with its word (R46; D13, log 12). -/
theorem memDump_range (m : Memory) {first last : Int} (h : 0 ≤ first ∧ first ≤ last) :
    memDump m first last =
      .ok ((List.range (last - first + 1).toNat).map fun k => (first.toNat + k, m.word (first.toNat + k))) :=
  if_pos h

theorem memDump_noRange (m : Memory) {first last : Int} (h : ¬ (0 ≤ first ∧ first ≤ last)) :
    memDump m first last = .error (.invalidRange first last) := if_neg h

/-- Settles O27: a range is listed pair by pair, and other bounds are refused. -/
theorem dumpListsEveryAddressOfTheRange : Obligations.DumpListsEveryAddressOfTheRange := by
  intro m first last
  refine ⟨fun h0 hle => ⟨_, memDump_range m ⟨h0, hle⟩, ?_, fun k c hk => ?_⟩, memDump_noRange m⟩
  · rw [List.length_map, List.length_range]
    omega
  · obtain ⟨-, rfl⟩ := List.getElem?_eq_some_iff.1 hk
    rw [List.getElem_map, List.getElem_range]
    exact ⟨by omega, rfl⟩

end Sys2Proof.Machine
end

section
/-! What the decoder reads of a word, and the bytes of a word (spec/30_encoding.md R79 to R81; spec/41_decoder_loader.md
R122 to R124). -/

namespace Sys2Proof

/-! ### Decoding -/

/-- The opcode is the low five bits and nothing else (R71, R121). -/
theorem opcodeOf_congr {w w' : InstrWord} (h : ∀ j < 5, w'.toNat.testBit j = w.toNat.testBit j) :
    opcodeOf w' = opcodeOf w := by
  refine Nat.eq_of_testBit_eq fun j => ?_
  rw [opcodeOf_testBit, opcodeOf_testBit]
  by_cases hj : j < 5
  · rw [h j hj]
  · simp [hj]

/-- A field's value is the bits of its range and nothing else (R76, R122). -/
theorem FieldDefinition.extract_congr {f : FieldDefinition} (hf : f.startBit ≤ f.endBit) {w w' : InstrWord}
    (h : ∀ j, f.startBit ≤ j → j ≤ f.endBit → w'.toNat.testBit j = w.toNat.testBit j) : f.extract w' = f.extract w := by
  refine Nat.eq_of_testBit_eq fun j => ?_
  rw [FieldDefinition.extract_testBit, FieldDefinition.extract_testBit]
  by_cases hj : j < f.width
  · rw [h (f.startBit + j) (Nat.le_add_right ..) (by rw [FieldDefinition.width] at hj; omega)]
  · simp [hj]

theorem InstructionDefinition.extract_congr {d : InstructionDefinition} {w w' : InstrWord}
    (h : ∀ f ∈ d.orderedFields, f.extract w' = f.extract w) : d.extract w' = d.extract w :=
  List.map_congr_left fun f hf => by rw [h f hf]

/-- The converse of `decodeWordIn_ok`: opcodes being distinct, the lookup finds the row with the word's opcode (R123). -/
theorem decodeWordIn_of_mem {S : Schema} (hS : Schema.Sound S) {d : InstructionDefinition} (hd : d ∈ S) {w : InstrWord}
    (ho : d.opcode = opcodeOf w) : decodeWordIn S w = .ok { definition := d, fields := d.extract w, raw := w } := by
  rw [decodeWordIn, lookupOpcodeIn, ← ho, find_of_nodup (·.opcode) hS.opcodes hd]

/-- Settles O6: the lookup reads the opcode, and `extract` reads the fields' ranges, on which the words agree. -/
theorem unusedBitsAreIgnored : Obligations.UnusedBitsAreIgnored := by
  intro S w w' mi hS h hbits
  obtain ⟨hd, ho, hf, -⟩ := decodeWordIn_ok h
  have hop : opcodeOf w' = opcodeOf w := opcodeOf_congr fun j hj => hbits j (.inl hj)
  have hfields : mi.definition.extract w' = mi.definition.extract w := by
    refine InstructionDefinition.extract_congr fun f hmem => ?_
    obtain ⟨-, hle, -⟩ := ((Schema.sound hS).rows _ hd).fields f hmem
    exact FieldDefinition.extract_congr hle fun j h₁ h₂ => hbits j (.inr ⟨f, hmem, h₁, h₂⟩)
  rw [decodeWordIn_of_mem (Schema.sound hS) hd (ho.trans hop.symm), hfields, ← hf]

/-! ### Serialisation -/

theorem bytesOf_getElem? (w : InstrWord) {i : Nat} (hi : i < Config.instrBytes) :
    (bytesOf w)[i]? = some (w.extractLsb' (8 * i) 8) := by
  rw [bytesOf, List.getElem?_map, List.getElem?_range hi, Option.map_some]

/-- Settles O9: byte `i` is the eight bits from bit `8i` on, and `& 0xFF` is the remainder by `2^8`. -/
theorem wordsSerialiseLittleEndian : Obligations.WordsSerialiseLittleEndian := fun w =>
  ⟨bytesOf_length w, fun i hi => ⟨_, bytesOf_getElem? w hi, by
    rw [BitVec.extractLsb'_toNat, ← Nat.and_two_pow_sub_one_eq_mod]⟩⟩

/-- R81's sum is the number whose digits to base 256 are the bytes. -/
theorem littleEndian_eq_ofDigits (b : List Byte) : littleEndian b = Nat.ofDigits 256 (b.map BitVec.toNat) := by
  induction b with
  | nil => rfl
  | cons x b ih => rw [littleEndian, ih, List.map_cons, Nat.ofDigits_cons]

theorem byte_lt_base (b : List Byte) : ∀ x ∈ b.map BitVec.toNat, x < 256 := by
  rintro _ hx
  obtain ⟨x, -, rfl⟩ := List.mem_map.1 hx
  exact x.isLt

theorem littleEndian_lt (b : List Byte) : littleEndian b < 256 ^ b.length := by
  simpa [littleEndian_eq_ofDigits] using Nat.ofDigits_lt_base_pow_length (by decide) (byte_lt_base b)

/-- The bytes of a number are determined by it and by how many they are. -/
theorem littleEndian_inj {b b' : List Byte} (hl : b.length = b'.length) (h : littleEndian b = littleEndian b') : b = b' := by
  rw [littleEndian_eq_ofDigits, littleEndian_eq_ofDigits] at h
  exact List.map_injective_iff.2 (fun _ _ => BitVec.eq_of_toNat_eq)
    (Nat.ofDigits_inj_of_len_eq (by decide) (by simpa using hl) (byte_lt_base b) (byte_lt_base b') h)

/-- The 14 bytes of a word hold the whole of its value (R80). -/
theorem littleEndian_bytesOf (w : InstrWord) : littleEndian (bytesOf w) = w.toNat :=
  (littleEndian_bytes w 14).trans (Nat.mod_eq_of_lt w.isLt)

/-- 14 bytes fit the word: deserialisation loses nothing (R81). -/
theorem toNat_wordOf {b : List Byte} (hb : b.length = 14) : (wordOf b).toNat = littleEndian b := by
  have := littleEndian_lt b
  rw [hb] at this
  exact Nat.mod_eq_of_lt this

/-- Settles O10: `wordOf_bytesOf` one way; the other way, both lists are 14 bytes with one value. -/
theorem serialisationIsABijection : Obligations.SerialisationIsABijection := by
  refine ⟨wordOf_bytesOf, fun b hb => littleEndian_inj ((bytesOf_length _).trans hb.symm) ?_⟩
  rw [littleEndian_bytesOf, toNat_wordOf hb]

/-! ### Decoding bytes -/

/-- The decoder reads from a word's bytes what it reads from the word. -/
theorem decodeBytes_bytesOf (w : InstrWord) : decodeBytes (bytesOf w) = decodeInstr w :=
  (if_pos (bytesOf_length w)).trans (congrArg decodeInstr (wordOf_bytesOf w))

theorem decodeTableWord_eq (nbits w : Nat) : decodeTableWord nbits w = (decodeInstr (tableWord nbits w)).toOption := by
  rw [decodeTableWord, decodeBytes_bytesOf]

/-- Settles O1: the decoder on the five words themselves, the way through their bytes being the identity. -/
theorem wordsOfTheFormatsDecode : Obligations.WordsOfTheFormatsDecode := by
  simp only [Obligations.WordsOfTheFormatsDecode, decodeTableWord_eq]
  decide

end Sys2Proof
end

section
/-! The encoder ENC: what `encode` and `encode_program` answer, what words they make, and that the decoder undoes them
(spec/40_schema_encoder.md R101 to R110). -/

namespace Sys2Proof

/-! ### Keys and ranges -/

theorem lookup_ne_none_iff (m : FieldMap) (n : String) : m.lookup n ≠ none ↔ n ∈ m.map Prod.fst := by
  rw [ne_eq, lookup_eq_none_iff, not_not]

/-- The keys are exactly the declared names (R102). -/
def InstructionDefinition.KeysMatch (d : InstructionDefinition) (values : FieldMap) : Prop :=
  ∀ n, n ∈ d.names ↔ n ∈ values.map Prod.fst

theorem InstructionDefinition.keysMatch_iff (d : InstructionDefinition) (values : FieldMap) :
    d.KeysMatch values ↔ ∀ n, n ∈ d.names ↔ values.lookup n ≠ none := by
  simp only [lookup_ne_none_iff, KeysMatch]

/-- `fitsField` at a field's width compares with the field's mask (R72, R103). -/
theorem FieldDefinition.fitsField_width_iff (f : FieldDefinition) (v : Int) :
    fitsField f.width v = true ↔ 0 ≤ v ∧ v ≤ (f.mask : Int) := by
  rw [fitsField, Bool.and_eq_true, decide_eq_true_eq, decide_eq_true_eq, FieldDefinition.mask]

theorem FieldDefinition.supplied_of_lookup {f : FieldDefinition} {values : FieldMap} {v : Int}
    (h : values.lookup f.name = some v) : f.supplied values = v := by
  rw [FieldDefinition.supplied, h, Option.getD_some]

/-- The mapping supplies the field, and its value is in `0..mask` (R103). -/
def FieldDefinition.SuppliedInRange (f : FieldDefinition) (values : FieldMap) : Prop :=
  ∃ v, values.lookup f.name = some v ∧ 0 ≤ v ∧ v ≤ (f.mask : Int)

theorem FieldDefinition.SuppliedInRange.inRange {f : FieldDefinition} {values : FieldMap}
    (h : f.SuppliedInRange values) : f.inRange values = true := by
  obtain ⟨v, hv, hr⟩ := h
  rw [FieldDefinition.inRange, FieldDefinition.supplied_of_lookup hv, FieldDefinition.fitsField_width_iff]
  exact hr

theorem InstructionDefinition.KeysMatch.suppliedInRange_iff {d : InstructionDefinition} {values : FieldMap}
    (hk : d.KeysMatch values) {f : FieldDefinition} (hf : f ∈ d.orderedFields) :
    f.SuppliedInRange values ↔ f.inRange values = true :=
  ⟨FieldDefinition.SuppliedInRange.inRange, fun h =>
    ⟨_, FieldDefinition.lookup_supplied hk hf, (f.fitsField_width_iff _).1 h⟩⟩

/-! ### What `encode` answers -/

/-- All that a passed schema check leaves `encode` to do: the first field out of range is named, or the word is packed
(R103 to R105). -/
theorem InstructionDefinition.encode_of_keysMatch {d : InstructionDefinition} {values : FieldMap}
    (hk : d.KeysMatch values) :
    (d.AllInRange values ∧ d.encode values = .ok (d.pack values)) ∨
      ∃ before f after, d.orderedFields = before ++ f :: after ∧ (∀ g ∈ before, g.inRange values = true) ∧
        f.inRange values = false ∧ d.encode values = .error (.rangeError f.name f.width (f.supplied values)) := by
  by_cases hr : d.AllInRange values
  · exact .inl ⟨hr, (d.encode_ok values _).2 ⟨hk, hr, rfl⟩⟩
  · right
    rw [InstructionDefinition.encode, (d.checkSchema_ok values).2 hk, InstructionDefinition.checkRange]
    rw [← InstructionDefinition.checkRange_ok, InstructionDefinition.checkRange] at hr
    cases hfind : d.orderedFields.find? fun f => !f.inRange values with
    | none => rw [hfind] at hr; exact absurd rfl hr
    | some f =>
      obtain ⟨hbad, before, after, hsplit, hgood⟩ := List.find?_eq_some_iff_append.1 hfind
      exact ⟨before, f, after, hsplit, by simpa using hgood, by simpa using hbad, rfl⟩

/-- A failed schema check is all that `encode` reports, whatever the values are (R102, R105; D9, log 14). -/
theorem InstructionDefinition.encode_of_not_keysMatch {d : InstructionDefinition} {values : FieldMap}
    (hk : ¬ d.KeysMatch values) :
    d.encode values = .error (.schemaError (d.missing values) (d.extra values)) := by
  have hc : ¬ d.checkSchema values = .ok () := fun h => hk ((d.checkSchema_ok values).1 h)
  rw [InstructionDefinition.checkSchema] at hc
  rw [InstructionDefinition.encode, InstructionDefinition.checkSchema]
  split_ifs at hc ⊢ with h
  · exact absurd rfl hc
  · rfl

theorem InstructionDefinition.encode_schemaError {d : InstructionDefinition} {values : FieldMap}
    {missing extra : List String} (h : d.encode values = .error (.schemaError missing extra)) :
    ¬ d.KeysMatch values ∧ missing = d.missing values ∧ extra = d.extra values := by
  by_cases hk : d.KeysMatch values
  · rcases InstructionDefinition.encode_of_keysMatch hk with ⟨-, h'⟩ | ⟨_, _, _, -, -, -, h'⟩ <;>
      rw [h'] at h <;> cases h
  · rw [InstructionDefinition.encode_of_not_keysMatch hk] at h
    cases h
    exact ⟨hk, rfl, rfl⟩

/-- Settles O13: `encode` answers a SchemaError on a key mismatch and nowhere else, with the lists of the schema check. -/
theorem schemaErrorExactlyOnKeyMismatch : Obligations.SchemaErrorExactlyOnKeyMismatch := by
  intro d values
  rw [← InstructionDefinition.keysMatch_iff]
  refine ⟨⟨?_, fun hk => ⟨_, _, InstructionDefinition.encode_of_not_keysMatch hk⟩⟩, fun missing extra h => ?_⟩
  · rintro ⟨missing, extra, h⟩
    exact (InstructionDefinition.encode_schemaError h).1
  · obtain ⟨-, rfl, rfl⟩ := InstructionDefinition.encode_schemaError h
    exact ⟨fun n => by rw [lookup_eq_none_iff, InstructionDefinition.mem_missing],
      fun n => by rw [lookup_ne_none_iff, InstructionDefinition.mem_extra]⟩

/-- Settles O14: with the right keys the word is packed or the first field out of range is named, and not both. -/
theorem rangeErrorNamesTheFirstBadField : Obligations.RangeErrorNamesTheFirstBadField := by
  intro d values hkeys
  have hk := (d.keysMatch_iff values).2 hkeys
  rcases InstructionDefinition.encode_of_keysMatch hk with
    ⟨hall, henc⟩ | ⟨before, f, after, hsplit, hgood, hbad, henc⟩
  · rw [henc]
    exact ⟨⟨fun _ f hf => (hk.suppliedInRange_iff hf).2 (hall f hf), fun _ => ⟨_, rfl⟩⟩, fun e h => by cases h⟩
  · have hf : f ∈ d.orderedFields := by simp [hsplit]
    have hbefore : ∀ g ∈ before, g ∈ d.orderedFields := fun g hg => by simp [hsplit, hg]
    rw [henc]
    refine ⟨⟨fun ⟨w, h⟩ => (by cases h), fun h => ?_⟩, fun e h => ?_⟩
    · rw [FieldDefinition.SuppliedInRange.inRange (h f hf)] at hbad
      cases hbad
    · cases h
      have hout : ¬ (0 ≤ f.supplied values ∧ f.supplied values ≤ (f.mask : Int)) := by
        rw [← FieldDefinition.fitsField_width_iff]
        exact Bool.eq_false_iff.1 hbad
      exact ⟨before, f, after, _, hsplit, FieldDefinition.lookup_supplied hk hf, rfl, by omega,
        fun g hg => (hk.suppliedInRange_iff (hbefore g hg)).2 (hgood g hg)⟩

/-! ### What word `encode` makes -/

theorem InstructionDefinition.opcodeOf_encode {d : InstructionDefinition} (hd : d.Sound) {values : FieldMap}
    {w : InstrWord} (h : d.encode values = .ok w) : opcodeOf w = d.opcode := by
  obtain ⟨-, hr, rfl⟩ := (d.encode_ok values w).1 h
  exact InstructionDefinition.opcodeOf_pack hd hr

/-- Every set bit of an encoded word is a bit of its opcode or of a field (R104, R107). -/
theorem InstructionDefinition.used_of_encode_testBit {d : InstructionDefinition} (hd : d.Sound) {values : FieldMap}
    {w : InstrWord} (h : d.encode values = .ok w) {j : Nat} (hj : w.toNat.testBit j = true) :
    j < 5 ∨ ∃ f ∈ d.orderedFields, f.covers j = true := by
  obtain ⟨-, hr, rfl⟩ := (d.encode_ok values w).1 h
  rw [InstructionDefinition.pack_testBit hd hr, Bool.or_eq_true, List.any_eq_true] at hj
  rcases hj with hop | ⟨f, hf, hbit⟩
  · refine .inl (Nat.lt_of_not_le fun hle => ?_)
    rw [testBit_eq_false_of_lt hd.opcode hle] at hop
    cases hop
  · exact .inr ⟨f, hf, (Bool.and_eq_true _ _ ▸ hbit).1⟩

theorem InstructionDefinition.canon_encode {d : InstructionDefinition} (hd : d.Sound) {values : FieldMap}
    {w : InstrWord} (h : d.encode values = .ok w) : d.canon w = w := by
  refine BitVec.eq_of_toNat_eq (Nat.eq_of_testBit_eq fun j => ?_)
  rw [InstructionDefinition.canon_testBit hd, Bool.and_eq_left_iff_imp, Bool.or_eq_true, decide_eq_true_eq,
    List.any_eq_true]
  exact InstructionDefinition.used_of_encode_testBit hd h

/-- Settles O11: the set bits of an encoded word are bits of its opcode or of its fields. -/
theorem encodedWordsAreCanonical : Obligations.EncodedWordsAreCanonical := by
  intro d values w hwf h
  have hd := InstructionDefinition.sound hwf
  refine ⟨?_, InstructionDefinition.canon_encode hd h, fun j hj hout => Bool.eq_false_iff.2 fun hbit => ?_⟩
  · rw [← InstructionDefinition.opcodeOf_encode hd h]
    exact (Nat.and_two_pow_sub_one_eq_mod w.toNat 5).symm
  · rcases InstructionDefinition.used_of_encode_testBit hd h hbit with hlow | ⟨f, hf, hc⟩
    · omega
    · exact hout f hf (by simpa [FieldDefinition.covers] using hc)

/-! ### `extract` undoes `encode` -/

theorem InstructionDefinition.extract_keys (d : InstructionDefinition) (w : InstrWord) :
    (d.extract w).map Prod.fst = d.names := by
  rw [InstructionDefinition.extract, List.map_map]
  rfl

/-- R108: as maps, what `extract` reads from an encoded word is what was encoded. -/
theorem InstructionDefinition.lookup_extract_encode {d : InstructionDefinition} (hd : d.Sound) {values : FieldMap}
    {w : InstrWord} (h : d.encode values = .ok w) (n : String) : (d.extract w).lookup n = values.lookup n := by
  obtain ⟨hk, hr, rfl⟩ := (d.encode_ok values w).1 h
  by_cases hn : n ∈ d.names
  · obtain ⟨f, hf, rfl⟩ := List.mem_map.1 hn
    rw [InstructionDefinition.extract, lookup_map_of_nodup _ hd.names hf, InstructionDefinition.extract_pack hd hr hf,
      FieldDefinition.lookup_supplied hk hf]
  · rw [(lookup_eq_none_iff ..).2 (by rwa [InstructionDefinition.extract_keys]),
      (lookup_eq_none_iff ..).2 (by rwa [← hk])]

/-- Settles O3: keys and ranges make `encode` succeed, and each field reads back. -/
theorem extractUndoesEncode : Obligations.ExtractUndoesEncode := by
  intro d values hwf hdeclared hin
  have hk : d.KeysMatch values := (d.keysMatch_iff values).2 fun n => by
    refine ⟨fun hn => ?_, hdeclared n⟩
    obtain ⟨f, hf, rfl⟩ := List.mem_map.1 hn
    obtain ⟨v, hv, -⟩ := hin f hf
    simp [hv]
  have henc := (d.encode_ok values _).2 ⟨hk, fun f hf => FieldDefinition.SuppliedInRange.inRange (hin f hf), rfl⟩
  exact ⟨_, henc, InstructionDefinition.lookup_extract_encode (InstructionDefinition.sound hwf) henc⟩

/-- Settles O12: the opcodes, equal in the word, name one definition, and `extract` gives both mappings back. -/
theorem encodeIsInjective : Obligations.EncodeIsInjective := by
  intro S d d' values values' w hwf hd hd' h h'
  have hS := Schema.sound hwf
  have hop : d.opcode = d'.opcode := by
    rw [← InstructionDefinition.opcodeOf_encode (hS.rows d hd) h,
      InstructionDefinition.opcodeOf_encode (hS.rows d' hd') h']
  obtain rfl := List.inj_on_of_nodup_map hS.opcodes hd hd' hop
  refine ⟨rfl, fun n => ?_⟩
  rw [← InstructionDefinition.lookup_extract_encode (hS.rows d hd) h,
    InstructionDefinition.lookup_extract_encode (hS.rows d hd) h']

/-! ### The decoder undoes the encoder -/

/-- An encoded word decodes to the row it was encoded by (R125). -/
theorem decodeWordIn_encode {S : Schema} (hS : Schema.Sound S) {d : InstructionDefinition} (hd : d ∈ S)
    {values : FieldMap} {w : InstrWord} (h : d.encode values = .ok w) :
    decodeWordIn S w = .ok { definition := d, fields := d.extract w, raw := w } :=
  decodeWordIn_of_mem hS hd (InstructionDefinition.opcodeOf_encode (hS.rows d hd) h).symm

theorem encodeIRIn_of_lookup {S : Schema} {ir : InstructionIR} {d : InstructionDefinition}
    (h : lookupMnemonicIn S ir.mnemonic = .ok d) : encodeIRIn S ir = d.encode ir.fields := by
  rw [encodeIRIn, h]

/-- An instruction is encoded by the row its mnemonic finds. -/
theorem encode_of_lookup {i : Instr} {d : InstructionDefinition} (h : lookupMnemonicIn schema i.mnemonic = .ok d) :
    encode i = d.encode i.fieldMap :=
  encodeIRIn_of_lookup (ir := i.toIR) h

theorem decodeInstr_of_dispatch {w : InstrWord} {mi : MachineInstruction} {i : Instr} (h : decodeWord w = .ok mi)
    (hi : mi.dispatch = .ok i) : decodeInstr w = .ok i := by
  simp only [decodeInstr, h, hi]

/-- The word of a row of SCHEMA decodes to the instruction that the encoded mapping stands for: dispatch reads the
mapping's values only (R140). -/
theorem decodeInstr_encode {d : InstructionDefinition} (hd : d ∈ schema) {values : FieldMap} {w : InstrWord}
    (h : d.encode values = .ok w) {i : Instr}
    (hi : ({ definition := d, fields := values, raw := 0 } : MachineInstruction).dispatch = .ok i) :
    decodeInstr w = .ok i := by
  have hS := Schema.sound schema_wellFormed
  refine decodeInstr_of_dispatch (decodeWordIn_encode hS hd h) (Eq.trans ?_ hi)
  exact dispatch_congr rfl (InstructionDefinition.lookup_extract_encode (hS.rows d hd) h)

/-- Every instruction has its row in SCHEMA (R74). -/
theorem Laws.definitionFits (i : Instr) : DefinitionFits.Statement i := by
  cases i with
  | loadConst b c => exact DefinitionFits.loadConst b c
  | readMem b c d => exact DefinitionFits.readMem b c d
  | writeMem b c => exact DefinitionFits.writeMem b c
  | notMem b c d => exact DefinitionFits.notMem b c d

/-- Settles O2: the instruction's row of SCHEMA encodes it, and decoding that row's word gives it back. -/
theorem decodeEncodeAgree : Obligations.DecodeEncodeAgree := by
  intro i hwf
  obtain ⟨d, hd, hlookup, -, hnames, hrange, hdispatch⟩ := Laws.definitionFits i
  obtain ⟨w, henc⟩ : ∃ w, d.encode i.fieldMap = .ok w :=
    ⟨_, (d.encode_ok ..).2 ⟨fun n => by rw [hnames], hrange.1 hwf, rfl⟩⟩
  have hdec : decodeInstr w = .ok i := decodeInstr_encode hd henc hdispatch
  exact ⟨w, (encode_of_lookup hlookup).trans henc, hdec, (decodeBytes_bytesOf w).trans hdec⟩

/-! ### Mnemonics -/

theorem upperChar_of_not_lower {c : Char} (h : ¬ ('a' ≤ c ∧ c ≤ 'z')) : upperChar c = c := if_neg h

theorem lower_iff_toNat (c : Char) : ('a' ≤ c ∧ c ≤ 'z') ↔ 97 ≤ c.toNat ∧ c.toNat ≤ 122 := Iff.rfl

theorem toNat_upperChar_of_lower {c : Char} (h : 'a' ≤ c ∧ c ≤ 'z') : (upperChar c).toNat = c.toNat - 32 := by
  have hc := (lower_iff_toNat c).1 h
  have hvalid : (c.toNat - 32).isValidChar := .inl (by omega)
  rw [upperChar, if_pos h, Char.toNat_ofNat, if_pos hvalid]

/-- An upper-case letter is not lower-case, so folding twice is folding once (R101). -/
theorem upperChar_upperChar (c : Char) : upperChar (upperChar c) = upperChar c := by
  by_cases h : 'a' ≤ c ∧ c ≤ 'z'
  · refine upperChar_of_not_lower fun hup => ?_
    rw [lower_iff_toNat, toNat_upperChar_of_lower h] at hup
    have hc := (lower_iff_toNat c).1 h
    omega
  · rw [upperChar_of_not_lower h, upperChar_of_not_lower h]

theorem toList_upper (m : String) : (upper m).toList = m.toList.map upperChar := String.toList_ofList

theorem upper_upper (m : String) : upper (upper m) = upper m := by
  rw [← String.toList_inj, toList_upper, toList_upper, List.map_map]
  exact List.map_congr_left fun c _ => upperChar_upperChar c

/-- All that `lookup_mnemonic` can answer (R101). -/
theorem lookupMnemonicIn_cases (S : Schema) (m : String) :
    (∃ d ∈ S, d.mnemonic = upper m ∧ lookupMnemonicIn S m = .ok d) ∨
      (∀ d ∈ S, d.mnemonic ≠ upper m) ∧ lookupMnemonicIn S m = .error (.unknownMnemonic m) := by
  rw [lookupMnemonicIn]
  cases hfind : S.find? fun d => d.mnemonic == upper m with
  | some d => exact .inl ⟨d, List.mem_of_find?_eq_some hfind, by simpa using List.find?_some hfind, rfl⟩
  | none => exact .inr ⟨by simpa using hfind, rfl⟩

/-- Settles O15: the letters by their codes, and the lookup by its two answers, mnemonics being distinct. -/
theorem mnemonicLookupFoldsAsciiCase : Obligations.MnemonicLookupFoldsAsciiCase := by
  refine ⟨fun c ha hz => toNat_upperChar_of_lower ⟨ha, hz⟩, fun c => upperChar_of_not_lower,
    fun m => ⟨toList_upper m, upper_upper m⟩, fun S m hwf => ?_⟩
  rcases lookupMnemonicIn_cases S m with ⟨d, hd, hm, hlookup⟩ | ⟨hnone, hlookup⟩
  · rw [hlookup]
    refine ⟨fun d' => ⟨?_, fun ⟨hd', hm'⟩ => ?_⟩, fun hnone => absurd hm (hnone d hd)⟩
    · rintro ⟨⟩
      exact ⟨hd, hm⟩
    · rw [List.inj_on_of_nodup_map (Schema.sound hwf).mnemonics hd hd' (hm.trans hm'.symm)]
  · rw [hlookup]
    exact ⟨fun d => ⟨fun h => (by cases h), fun ⟨hd, hm⟩ => absurd hm (hnone d hd)⟩, fun _ => rfl⟩

/-! ### `encode_program` -/

/-- Words for the instructions in front, and the outcome is that of the instructions behind them (R106). -/
theorem encodeFromIn_append {S : Schema} {before : List InstructionIR} {ws : List InstrWord}
    (h : before.map (encodeIRIn S) = ws.map Except.ok) (k : Nat) (rest : List InstructionIR) :
    encodeFromIn S k (before ++ rest) = (encodeFromIn S (k + before.length) rest).map (ws ++ ·) := by
  induction before generalizing k ws with
  | nil =>
    obtain rfl : ws = [] := by simpa using h.symm
    cases hrest : encodeFromIn S k rest <;> simp [hrest, Except.map]
  | cons ir before ih =>
    cases ws with
    | nil => cases h
    | cons w ws =>
      obtain ⟨hir, hbefore⟩ := List.cons.inj h
      rw [List.cons_append, encodeFromIn, hir, ih hbefore, List.length_cons, Nat.add_assoc, Nat.add_comm 1]
      cases encodeFromIn S (k + (before.length + 1)) rest <;> rfl

/-- `e` is the error and the position, counted from 0, of the first instruction that fails (R106; D10, log 14). -/
def FirstFailure (S : Schema) (irs : List InstructionIR) (e : LocatedError) : Prop :=
  ∃ before ir after, ∃ ws : List InstrWord, irs = before ++ ir :: after ∧
    before.map (encodeIRIn S) = ws.map Except.ok ∧ encodeIRIn S ir = .error e.error ∧ e.position = some before.length

/-- Every instruction encodes, or there is a first that fails. -/
theorem encodes_or_firstFailure (S : Schema) (irs : List InstructionIR) :
    (∃ ws : List InstrWord, irs.map (encodeIRIn S) = ws.map Except.ok) ∨ ∃ e, FirstFailure S irs e := by
  induction irs with
  | nil => exact .inl ⟨[], rfl⟩
  | cons ir irs ih =>
    cases hir : encodeIRIn S ir with
    | error e => exact .inr ⟨⟨e, some 0⟩, [], ir, irs, [], rfl, rfl, hir, rfl⟩
    | ok w =>
      rcases ih with ⟨ws, hws⟩ | ⟨e, before, bad, after, ws, rfl, hws, hbad, -⟩
      · exact .inl ⟨w :: ws, by simp [hir, hws]⟩
      · exact .inr ⟨⟨e.error, some (before.length + 1)⟩, ir :: before, bad, after, w :: ws, rfl, by simp [hir, hws],
          hbad, rfl⟩

theorem encodeProgramIn_of_encodes {S : Schema} {irs : List InstructionIR} {ws : List InstrWord}
    (h : irs.map (encodeIRIn S) = ws.map Except.ok) : encodeProgramIn S irs = .ok ws := by
  simpa [encodeProgramIn, encodeFromIn, Except.map] using encodeFromIn_append h 0 []

theorem encodeProgramIn_of_firstFailure {S : Schema} {irs : List InstructionIR} {e : LocatedError}
    (h : FirstFailure S irs e) : encodeProgramIn S irs = .error e := by
  obtain ⟨before, ir, after, ws, rfl, hws, hir, hpos⟩ := h
  obtain ⟨err, pos⟩ := e
  obtain rfl : pos = some before.length := hpos
  rw [encodeProgramIn, encodeFromIn_append hws, encodeFromIn, hir, Nat.zero_add]
  rfl

theorem encodeProgramIn_ok_iff {S : Schema} {irs : List InstructionIR} {ws : List InstrWord} :
    encodeProgramIn S irs = .ok ws ↔ irs.map (encodeIRIn S) = ws.map Except.ok := by
  refine ⟨fun h => ?_, encodeProgramIn_of_encodes⟩
  rcases encodes_or_firstFailure S irs with ⟨ws', hws⟩ | ⟨e, he⟩
  · rwa [Except.ok.inj (h.symm.trans (encodeProgramIn_of_encodes hws))]
  · cases h.symm.trans (encodeProgramIn_of_firstFailure he)

theorem encodeProgramIn_error_iff {S : Schema} {irs : List InstructionIR} {e : LocatedError} :
    encodeProgramIn S irs = .error e ↔ FirstFailure S irs e := by
  refine ⟨fun h => ?_, encodeProgramIn_of_firstFailure⟩
  rcases encodes_or_firstFailure S irs with ⟨ws, hws⟩ | ⟨e', he⟩
  · cases h.symm.trans (encodeProgramIn_of_encodes hws)
  · rwa [Except.error.inj (h.symm.trans (encodeProgramIn_of_firstFailure he))]

/-- Settles O16: a program encodes throughout or has a first failure, and `encode_program` answers accordingly. -/
theorem encodeProgramStopsAtTheFirstFailure : Obligations.EncodeProgramStopsAtTheFirstFailure := fun _ _ =>
  ⟨fun _ => encodeProgramIn_ok_iff, fun _ => encodeProgramIn_error_iff⟩

/-- The three errors of ENC (R110). -/
def MachineError.OfEncoder (e : MachineError) : Prop :=
  (∃ m, e = .unknownMnemonic m) ∨ (∃ a b, e = .schemaError a b) ∨ ∃ f w v, e = .rangeError f w v

theorem InstructionDefinition.encode_error_ofEncoder {d : InstructionDefinition} {values : FieldMap} {e : MachineError}
    (h : d.encode values = .error e) : e.OfEncoder := by
  by_cases hk : d.KeysMatch values
  · rcases InstructionDefinition.encode_of_keysMatch hk with ⟨-, hok⟩ | ⟨_, _, _, -, -, -, hrange⟩
    · cases hok.symm.trans h
    · cases hrange.symm.trans h
      exact .inr (.inr ⟨_, _, _, rfl⟩)
  · cases (InstructionDefinition.encode_of_not_keysMatch hk).symm.trans h
    exact .inr (.inl ⟨_, _, rfl⟩)

theorem encodeIRIn_error_ofEncoder {S : Schema} {ir : InstructionIR} {e : MachineError}
    (h : encodeIRIn S ir = .error e) : e.OfEncoder := by
  rcases lookupMnemonicIn_cases S ir.mnemonic with ⟨d, -, -, hfound⟩ | ⟨-, hnone⟩
  · exact InstructionDefinition.encode_error_ofEncoder ((encodeIRIn_of_lookup hfound).symm.trans h)
  · rw [encodeIRIn, hnone] at h
    cases h
    exact .inl ⟨_, rfl⟩

/-- Settles O17: a failure is one instruction's, of its lookup or of `encode`; one program for each of the errors. -/
theorem encoderRaisesExactlyThreeErrors : Obligations.EncoderRaisesExactlyThreeErrors := by
  refine ⟨fun S irs e h => ?_,
    ⟨[⟨"JMP", []⟩], ⟨.unknownMnemonic "JMP", some 0⟩, "JMP", by decide, rfl⟩,
    ⟨[⟨"LOAD_CONST", [("B", 1)]⟩], ⟨.schemaError ["C"] [], some 0⟩, ["C"], [], by decide, rfl⟩,
    ⟨[⟨"LOAD_CONST", [("B", -1), ("C", 0)]⟩], ⟨.rangeError "B" 64 (-1), some 0⟩, "B", 64, -1, by decide, rfl⟩⟩
  obtain ⟨_, _, _, _, -, -, hir, -⟩ := encodeProgramIn_error_iff.1 h
  exact encodeIRIn_error_ofEncoder hir

end Sys2Proof
end

section
/-! The decoder DEC: what `decode_word` and `extract` answer for every word, and what a decoded word encodes back to
(spec/41_decoder_loader.md R121 to R125, R129). -/

namespace Sys2Proof

/-! ### Words -/

theorem opcodeOf_eq_mod (w : InstrWord) : opcodeOf w = w.toNat % 32 := Nat.and_two_pow_sub_one_eq_mod w.toNat 5

/-- Settles O4: the word finds the row it was encoded by, and `extract` gives the mapping back. -/
theorem decodeOfEncodedWord : Obligations.DecodeOfEncodedWord := fun _ _ _ _ hwf hd h =>
  have hS := Schema.sound hwf
  ⟨_, decodeWordIn_encode hS hd h, rfl, rfl, InstructionDefinition.lookup_extract_encode (hS.rows _ hd) h⟩

/-- Settles O7: `decode_word` answers or fails, and either answer tells whether a row has the word's opcode. -/
theorem decodeFailsOnlyInTheOpcodeLookup : Obligations.DecodeFailsOnlyInTheOpcodeLookup := by
  intro S w
  rw [← opcodeOf_eq_mod]
  cases h : decodeWordIn S w with
  | ok mi =>
    obtain ⟨hd, ho, -, -⟩ := decodeWordIn_ok h
    exact ⟨fun _ => ⟨mi, rfl, hd, ho⟩, fun hnone => absurd ho (hnone _ hd), fun e he => by cases he⟩
  | error e =>
    obtain ⟨hnone, rfl⟩ := decodeWordIn_error h
    exact ⟨fun ⟨d, hd, ho⟩ => absurd ho (hnone d hd), fun _ => ⟨_, rfl⟩, fun e he => by cases he; exact ⟨_, rfl⟩⟩

theorem InstructionDefinition.lookup_extract {d : InstructionDefinition} (hn : d.names.Nodup) (w : InstrWord)
    {f : FieldDefinition} (hf : f ∈ d.orderedFields) : (d.extract w).lookup f.name = some (f.extract w : Int) :=
  lookup_map_of_nodup _ hn hf

/-- Settles O8: `extract` has one pair per declared field, and masking by `mask` gives at most `mask`. -/
theorem extractIsTotalAndInRange : Obligations.ExtractIsTotalAndInRange := fun d w =>
  ⟨d.extract_keys w, fun f hf hn => ⟨f.extract w, d.lookup_extract hn w hf, rfl, Nat.and_le_right⟩⟩

/-! ### Encoding what was decoded -/

theorem FieldDefinition.covers_iff (f : FieldDefinition) (j : Nat) :
    f.covers j = true ↔ f.startBit ≤ j ∧ j ≤ f.endBit := by
  rw [FieldDefinition.covers, Bool.and_eq_true, decide_eq_true_eq, decide_eq_true_eq]

/-- Bit `j` of the word is bit `j - start` of the value of the field that covers it. -/
theorem FieldDefinition.extract_testBit_of_covers {f : FieldDefinition} {j : Nat} (hc : f.covers j = true)
    (w : InstrWord) : (f.extract w).testBit (j - f.startBit) = w.toNat.testBit j := by
  obtain ⟨hstart, hend⟩ := (f.covers_iff j).1 hc
  have hlt : j - f.startBit < f.width := by rw [FieldDefinition.width]; omega
  rw [FieldDefinition.extract_testBit, decide_eq_true hlt, Bool.true_and, Nat.add_sub_cancel' hstart]

theorem any_congr_of_mem {α : Type} {l : List α} {p q : α → Bool} (h : ∀ a ∈ l, p a = q a) : l.any p = l.any q := by
  rw [Bool.eq_iff_iff, List.any_eq_true, List.any_eq_true]
  exact exists_congr fun a => and_congr_right fun ha => by rw [h a ha]

section extract
variable {d : InstructionDefinition} (hd : d.Sound) (w : InstrWord)
include hd

theorem InstructionDefinition.supplied_extract {f : FieldDefinition} (hf : f ∈ d.orderedFields) :
    f.supplied (d.extract w) = f.extract w :=
  FieldDefinition.supplied_of_lookup (d.lookup_extract hd.names w hf)

theorem InstructionDefinition.allInRange_extract : d.AllInRange (d.extract w) := fun f hf => by
  rw [FieldDefinition.inRange, InstructionDefinition.supplied_extract hd w hf]
  exact f.extract_fits w

/-- Packing a word's own opcode and field values keeps its used bits and clears the others (R87, R104). -/
theorem InstructionDefinition.pack_extract (ho : d.opcode = opcodeOf w) : d.pack (d.extract w) = d.canon w := by
  refine BitVec.eq_of_toNat_eq (Nat.eq_of_testBit_eq fun j => ?_)
  have hfield : ∀ f ∈ d.orderedFields,
      (f.covers j && (f.supplied (d.extract w)).toNat.testBit (j - f.startBit)) = (w.toNat.testBit j && f.covers j) := by
    intro f hf
    rw [InstructionDefinition.supplied_extract hd w hf, Int.toNat_natCast]
    cases hc : f.covers j with
    | false => rw [Bool.false_and, Bool.and_false]
    | true => rw [FieldDefinition.extract_testBit_of_covers hc, Bool.true_and, Bool.and_true]
  rw [InstructionDefinition.pack_testBit hd (InstructionDefinition.allInRange_extract hd w), ho, opcodeOf_testBit,
    InstructionDefinition.canon_testBit hd, Bool.and_or_distrib_left, Bool.and_comm, List.and_any_distrib_left,
    any_congr_of_mem hfield]

/-- What `extract` reads from any word with the definition's opcode encodes, to the word's canonical form (R129). -/
theorem InstructionDefinition.encode_extract (ho : d.opcode = opcodeOf w) :
    d.encode (d.extract w) = .ok (d.canon w) :=
  (d.encode_ok ..).2 ⟨fun n => by rw [InstructionDefinition.extract_keys],
    InstructionDefinition.allInRange_extract hd w, (InstructionDefinition.pack_extract hd w ho).symm⟩

/-- A word is canonical exactly when each of its set bits is a bit of the opcode or of a field (R87). -/
theorem InstructionDefinition.canon_eq_self_iff :
    d.canon w = w ↔ ∀ j, w.toNat.testBit j = true → j < 5 ∨ ∃ f ∈ d.orderedFields, f.covers j = true := by
  have hbits : d.canon w = w ↔ ∀ j, (d.canon w).toNat.testBit j = w.toNat.testBit j :=
    ⟨fun h _ => by rw [h], fun h => BitVec.eq_of_toNat_eq (Nat.eq_of_testBit_eq h)⟩
  simp only [hbits, InstructionDefinition.canon_testBit hd, Bool.and_eq_left_iff_imp, Bool.or_eq_true,
    decide_eq_true_eq, List.any_eq_true]

end extract

/-- Settles O5: `encode` undoes `extract` up to the unused bits, and the two ways to say that none of them is set are
contrapositives of each other. -/
theorem encodeOfDecodedWordIsCanonical : Obligations.EncodeOfDecodedWordIsCanonical := by
  intro S w mi hwf h
  obtain ⟨hmem, ho, hf, -⟩ := decodeWordIn_ok h
  have hd := (Schema.sound hwf).rows _ hmem
  refine ⟨hf ▸ InstructionDefinition.encode_extract hd w ho, (InstructionDefinition.canon_eq_self_iff hd w).trans ?_⟩
  refine forall_congr' fun j => ?_
  simp only [FieldDefinition.covers_iff]
  grind

end Sys2Proof
end

section
/-! The loader: what `load` makes of a blob, and that it makes of an encoded program what was encoded
(spec/41_decoder_loader.md R126, R127, R130, R131). -/

namespace Sys2Proof

/-! ### Chunks -/

/-- What DEC answers for each chunk alone (R126). -/
def chunkResults (S : Schema) (cs : List (List Byte)) : List (Except MachineError MachineInstruction) :=
  cs.map fun c => decodeWordIn S (wordOf c)

theorem chunkResults_bytesOf (S : Schema) (ws : List InstrWord) :
    chunkResults S (ws.map bytesOf) = ws.map (decodeWordIn S) := by
  simp [chunkResults, wordOf_bytesOf]

/-- Chunk `k` is bytes `14k .. 14k+13` (R82, R126). -/
theorem chunks_eq_map (n : Nat) (b : List Byte) :
    chunks n b = (List.range n).map fun k => (b.drop (14 * k)).take 14 := by
  induction n generalizing b with
  | zero => rfl
  | succ n ih =>
    rw [chunks, ih, List.range_succ_eq_map, List.map_cons, List.map_map]
    simp [Function.comp_def, Nat.mul_add, Nat.add_comm, Config.instrBytes]

@[simp] theorem chunkResults_chunks_length (S : Schema) (n : Nat) (b : List Byte) :
    (chunkResults S (chunks n b)).length = n := by
  simp [chunkResults, chunks_eq_map]

theorem chunkResults_chunks_getElem? (S : Schema) (n : Nat) (b : List Byte) (k : Nat)
    (r : Except MachineError MachineInstruction) :
    (chunkResults S (chunks n b))[k]? = some r ↔ k < n ∧ decodeWordIn S (wordOf ((b.drop (14 * k)).take 14)) = r := by
  by_cases hk : k < n <;> simp [chunkResults, chunks_eq_map, hk]

/-- The chunks load exactly when each of them decodes, to the instructions they decode to (R126). -/
theorem decodeChunksIn_ok_iff {S : Schema} {k : Nat} {cs : List (List Byte)} {p : List MachineInstruction} :
    decodeChunksIn S k cs = .ok p ↔ chunkResults S cs = p.map Except.ok := by
  induction cs generalizing k p with
  | nil => cases p <;> simp [decodeChunksIn, chunkResults]
  | cons c cs ih =>
    rw [decodeChunksIn, chunkResults, List.map_cons, ← chunkResults]
    cases hc : decodeWordIn S (wordOf c) with
    | error e => cases p <;> simp
    | ok mi =>
      cases p with
      | nil => cases decodeChunksIn S (k + 1) cs <;> simp
      | cons mi' p =>
        rw [List.map_cons, List.cons.injEq, ← ih (k := k + 1)]
        cases decodeChunksIn S (k + 1) cs <;> simp

/-- `e` is the error and the position of the first failure among `results`, the first of them having position `k`
(R127; D11, log 14). -/
def FirstFailureAmong (results : List (Except MachineError MachineInstruction)) (k : Nat) (e : LocatedError) : Prop :=
  ∃ i, results[i]? = some (.error e.error) ∧ e.position = some (k + i) ∧ ∀ j < i, ∃ mi, results[j]? = some (.ok mi)

theorem firstFailureAmong_error_cons {e : MachineError} {results : List (Except MachineError MachineInstruction)}
    {k : Nat} {e' : LocatedError} :
    FirstFailureAmong (.error e :: results) k e' ↔ e' = { error := e, position := some k } := by
  constructor
  · rintro ⟨_ | i, he, hpos, hbefore⟩
    · obtain ⟨err, pos⟩ := e'
      cases he
      cases hpos
      rfl
    · obtain ⟨mi, hmi⟩ := hbefore 0 i.succ_pos
      cases hmi
  · rintro rfl
    exact ⟨0, rfl, rfl, fun j hj => absurd hj j.not_lt_zero⟩

theorem firstFailureAmong_ok_cons {mi : MachineInstruction} {results : List (Except MachineError MachineInstruction)}
    {k : Nat} {e : LocatedError} :
    FirstFailureAmong (.ok mi :: results) k e ↔ FirstFailureAmong results (k + 1) e := by
  constructor
  · rintro ⟨_ | i, he, hpos, hbefore⟩
    · cases he
    · exact ⟨i, he, by rw [hpos, Nat.add_assoc, Nat.add_comm 1], fun j hj => hbefore (j + 1) (Nat.succ_lt_succ hj)⟩
  · rintro ⟨i, he, hpos, hbefore⟩
    refine ⟨i + 1, he, by rw [hpos, Nat.add_assoc, Nat.add_comm 1], ?_⟩
    rintro (_ | j) hj
    · exact ⟨mi, rfl⟩
    · exact hbefore j (Nat.lt_of_succ_lt_succ hj)

/-- Loading the chunks fails exactly with the first failure among them (R127). -/
theorem decodeChunksIn_error_iff {S : Schema} {k : Nat} {cs : List (List Byte)} {e : LocatedError} :
    decodeChunksIn S k cs = .error e ↔ FirstFailureAmong (chunkResults S cs) k e := by
  induction cs generalizing k with
  | nil => simp [decodeChunksIn, chunkResults, FirstFailureAmong]
  | cons c cs ih =>
    rw [decodeChunksIn, chunkResults, List.map_cons, ← chunkResults]
    cases hc : decodeWordIn S (wordOf c) with
    | error e' => simp [firstFailureAmong_error_cons, eq_comm]
    | ok mi =>
      rw [firstFailureAmong_ok_cons, ← ih]
      cases decodeChunksIn S (k + 1) cs <;> simp

/-! ### `load` -/

theorem loadIn_of_badLength {S : Schema} {b : List Byte} (h : b.length % 14 ≠ 0) :
    loadIn S b = .error { error := .malformedBinary b.length, position := none } := if_neg h

theorem loadIn_of_length {S : Schema} {b : List Byte} (h : b.length % 14 = 0) :
    loadIn S b = decodeChunksIn S 0 (chunks (b.length / 14) b) := if_pos h

/-- All a successful `load` says (R126). -/
theorem loadIn_ok {S : Schema} {b : List Byte} {p : List MachineInstruction} (h : loadIn S b = .ok p) :
    b.length % 14 = 0 ∧ chunkResults S (chunks (b.length / 14) b) = p.map Except.ok := by
  by_cases hl : b.length % 14 = 0
  · exact ⟨hl, decodeChunksIn_ok_iff.1 ((loadIn_of_length hl).symm.trans h)⟩
  · cases (loadIn_of_badLength hl).symm.trans h

/-- A list is an image exactly when it is as long and has the image of each element in its place. -/
theorem eq_map_iff_getElem? {α β : Type} {g : α → β} {l : List β} {p : List α} :
    l = p.map g ↔ p.length = l.length ∧ ∀ (k : Nat) (a : α), p[k]? = some a → l[k]? = some (g a) := by
  constructor
  · rintro rfl
    exact ⟨(List.length_map g).symm, fun k a h => by rw [List.getElem?_map, h, Option.map_some]⟩
  · rintro ⟨hl, h⟩
    refine List.ext_getElem (hl.symm.trans (List.length_map g).symm) fun k hk hk' => ?_
    have := h k _ (List.getElem?_eq_getElem (hl ▸ hk))
    rw [List.getElem?_eq_getElem hk] at this
    simpa using this

/-- Settles O19: `load` on a good length is the decoding of the chunks in order, and chunk `k` is bytes
`14k .. 14k+13`. -/
theorem loadDecodesChunksInOrder : Obligations.LoadDecodesChunksInOrder := by
  refine fun S b => ⟨loadIn_of_badLength, fun hl => ⟨fun p => ?_, fun e => ?_⟩⟩
  · rw [loadIn_of_length hl, decodeChunksIn_ok_iff, eq_map_iff_getElem?, chunkResults_chunks_length]
    refine and_congr_right fun hlen => forall₃_congr fun k mi hk => ?_
    have hlt : k < b.length / 14 := hlen ▸ (List.getElem?_eq_some_iff.1 hk).1
    rw [chunkResults_chunks_getElem?, and_iff_right hlt]
  · rw [loadIn_of_length hl, decodeChunksIn_error_iff]
    simp only [FirstFailureAmong, chunkResults_chunks_getElem?, Nat.zero_add]
    refine exists_congr fun k => ?_
    constructor
    · rintro ⟨⟨hk, he⟩, hpos, hbefore⟩
      refine ⟨hk, hpos, he, ?_, fun j hj => ?_⟩
      · rw [← opcodeOf_eq_mod]
        exact (decodeWordIn_error he).2
      · obtain ⟨mi, -, hmi⟩ := hbefore j hj
        exact ⟨mi, hmi⟩
    · rintro ⟨hk, hpos, he, -, hbefore⟩
      refine ⟨⟨hk, he⟩, hpos, fun j hj => ?_⟩
      obtain ⟨mi, hmi⟩ := hbefore j hj
      exact ⟨mi, hj.trans hk, hmi⟩

/-- Every instruction that `load` answers is what DEC yields for its raw word (R123, R130). -/
theorem decodeWordIn_raw_of_loadIn {S : Schema} {b : List Byte} {p : List MachineInstruction} (h : loadIn S b = .ok p)
    {mi : MachineInstruction} (hmi : mi ∈ p) : decodeWordIn S mi.raw = .ok mi := by
  obtain ⟨-, hresults⟩ := loadIn_ok h
  have hmem : Except.ok mi ∈ chunkResults S (chunks (b.length / 14) b) := hresults ▸ List.mem_map_of_mem hmi
  obtain ⟨c, -, hc⟩ := List.mem_map.1 hmem
  obtain ⟨-, -, -, hraw⟩ := decodeWordIn_ok hc
  rwa [hraw]

/-- Settles O21: `load` succeeds with DEC's output, and that is the one piece of state that is written. -/
theorem loadWritesTheProgramStoreOnly : Obligations.LoadWritesTheProgramStoreOnly := by
  intro b s t h
  rw [Machine.loadInto] at h
  cases hload : load b with
  | error e =>
    rw [hload] at h
    cases h
  | ok p =>
    rw [hload] at h
    cases h
    exact ⟨rfl, fun _ => decodeWordIn_raw_of_loadIn hload, rfl, rfl, rfl, rfl, rfl⟩

/-! ### Loading encoded programs -/

/-- A blob loads exactly when each of its words decodes, to the instructions they decode to (R82, R126). -/
theorem loadIn_blob_ok_iff {S : Schema} {ws : List InstrWord} {p : List MachineInstruction} :
    loadIn S (blob ws) = .ok p ↔ ws.map (decodeWordIn S) = p.map Except.ok := by
  have hlen : (blob ws).length % 14 = 0 := by simp
  have hcount : (blob ws).length / 14 = ws.length := by simp
  rw [loadIn_of_length hlen, hcount, chunks_blob, decodeChunksIn_ok_iff, chunkResults_bytesOf]

/-- The word of an IR instruction decodes to the row that its mnemonic names, the mapping it was given and the word
itself (R125, R131). -/
theorem decodeWordIn_of_encodeIRIn {S : Schema} (hwf : S.wellFormed = true) {ir : InstructionIR} {w : InstrWord}
    (h : encodeIRIn S ir = .ok w) :
    ∃ mi, decodeWordIn S w = .ok mi ∧ lookupMnemonicIn S ir.mnemonic = .ok mi.definition ∧ mi.raw = w ∧
      ∀ n, mi.fields.lookup n = ir.fields.lookup n := by
  rcases lookupMnemonicIn_cases S ir.mnemonic with ⟨d, hd, -, hfound⟩ | ⟨-, hnone⟩
  · obtain ⟨mi, hdec, rfl, hraw, hfields⟩ :=
      decodeOfEncodedWord S d ir.fields w hwf hd ((encodeIRIn_of_lookup hfound).symm.trans h)
    exact ⟨mi, hdec, hfound, hraw, hfields⟩
  · rw [encodeIRIn, hnone] at h
    cases h

/-- Where every element of a list gives a value, so does each element by its index. -/
theorem getElem?_of_map_eq_map_ok {α β ε : Type} {f : α → Except ε β} {l : List α} {l' : List β}
    (h : l.map f = l'.map Except.ok) {k : Nat} {a : α} (ha : l[k]? = some a) : ∃ b, l'[k]? = some b ∧ f a = .ok b := by
  have hk : (l.map f)[k]? = (l'.map Except.ok)[k]? := by rw [h]
  rw [List.getElem?_map, List.getElem?_map, ha, Option.map_some, eq_comm, Option.map_eq_some_iff] at hk
  obtain ⟨b, hb, hfa⟩ := hk
  exact ⟨b, hb, hfa.symm⟩

/-- Settles O20: each encoded word decodes, so the blob loads, and each instruction is compared at its index. -/
theorem encodedProgramsLoad : Obligations.EncodedProgramsLoad := by
  intro S irs ws hwf henc
  have hencodes : irs.map (encodeIRIn S) = ws.map Except.ok := encodeProgramIn_ok_iff.1 henc
  obtain ⟨p, hp⟩ : ∃ p : List MachineInstruction, p.map Except.ok = ws.map (decodeWordIn S) := by
    rw [← Set.mem_range, Set.range_list_map]
    rintro _ hr
    obtain ⟨w, hw, rfl⟩ := List.mem_map.1 hr
    obtain ⟨ir, -, hir⟩ := List.mem_map.1 (hencodes ▸ List.mem_map_of_mem hw : Except.ok w ∈ irs.map (encodeIRIn S))
    obtain ⟨mi, hdec, -⟩ := decodeWordIn_of_encodeIRIn hwf hir
    exact ⟨mi, hdec.symm⟩
  have hwords : irs.length = ws.length := by simpa using congrArg List.length hencodes
  have hinstrs : p.length = ws.length := by simpa using congrArg List.length hp
  refine ⟨p, loadIn_blob_ok_iff.2 hp.symm, hinstrs.trans hwords.symm, fun k ir hk => ?_⟩
  obtain ⟨w, hw, hir⟩ := getElem?_of_map_eq_map_ok hencodes hk
  obtain ⟨mi, hmi, hdec⟩ := getElem?_of_map_eq_map_ok hp.symm hw
  obtain ⟨mi', hdec', hlookup, rfl, hfields⟩ := decodeWordIn_of_encodeIRIn hwf hir
  cases hdec.symm.trans hdec'
  exact ⟨mi, hmi, hlookup, hw, hfields⟩

end Sys2Proof
end

section
/-! What each of the four instructions does: the word it stores where its accesses are at natural addresses, the error it
records where one is not, and what it leaves alone (spec/42_execute_instructions.md R141 to R153). -/

namespace Sys2Proof.Machine

/-! ### The four meanings as one write of a value -/

theorem exec_loadConst (b c : Int) (s : State) : exec (.loadConst b c) s = commit (memWrite s.mem c b) s := rfl

theorem exec_readMem (b c d : Int) (s : State) :
    exec (.readMem b c d) s = commit (writeValue (readIndirect s.mem b c) s.mem d) s := rfl

theorem exec_writeMem (b c : Int) (s : State) :
    exec (.writeMem b c) s = commit (writeValue (memRead s.mem b) s.mem c) s := rfl

theorem exec_notMem (b c d : Int) (s : State) :
    exec (.notMem b c d) s = commit (writeValue (complemented (readIndirect s.mem b c)) s.mem d) s := rfl

/-- The write that ends an instruction, at a natural address (R44, R147). -/
theorem commit_writeValue_nat (s : State) (v : Word) {d : Int} (hd : 0 ≤ d) :
    commit (writeValue (.ok v) s.mem d) s = .next { s with mem := s.mem.put d.toNat v } := by
  rw [writeValue_nat v s.mem hd, commit_ok]

/-- The write that ends an instruction, at a negative address (R152 (b)). -/
theorem commit_writeValue_neg (s : State) (v : Word) {d : Int} (hd : d < 0) :
    commit (writeValue (.ok v) s.mem d) s = .next { s with error := some (.invalidAddress d) } := by
  rw [writeValue_ok, memWrite_neg s.mem hd, commit_error]

/-- A failed read ends the instruction before its write (R58, R152 (b)). -/
theorem commit_writeValue_error (s : State) (e : MachineError) (d : Int) :
    commit (writeValue (.error e) s.mem d) s = .next { s with error := some e } := by
  rw [writeValue_error, commit_error]

theorem readIndirect_negPointer (m : Memory) {b : Int} (hb : b < 0) (c : Int) :
    readIndirect m b c = .error (.invalidAddress b) := by
  rw [readIndirect, memRead_neg m hb]

theorem readIndirect_negSum (m : Memory) {b c : Int} (hb : 0 ≤ b) (hea : effectiveAddress (m.word b.toNat) c < 0) :
    readIndirect m b c = .error (.invalidAddress (effectiveAddress (m.word b.toNat) c)) := by
  rw [readIndirect, memRead_nat m hb]
  exact memRead_neg m hea

/-! ### Natural addresses -/

theorem exec_loadConst_nat (b : Int) {c : Int} (s : State) (hc : 0 ≤ c) :
    exec (.loadConst b c) s = .next { s with mem := s.mem.put c.toNat (maskWord b) } :=
  exec_loadConst_of_memWrite (memWrite_nat s.mem hc b)

theorem exec_writeMem_nat {b c : Int} (s : State) (hb : 0 ≤ b) (hc : 0 ≤ c) :
    exec (.writeMem b c) s = .next { s with mem := s.mem.put c.toNat (s.mem.word b.toNat) } := by
  rw [exec_writeMem, memRead_nat s.mem hb, commit_writeValue_nat s _ hc]

section indirect
variable {b c d : Int} {s : State} (hb : 0 ≤ b) (hea : 0 ≤ effectiveAddress (s.mem.word b.toNat) c) (hd : 0 ≤ d)
include hb hea hd

theorem exec_readMem_nat :
    exec (.readMem b c d) s =
      .next { s with mem := s.mem.put d.toNat (s.mem.word (effectiveAddress (s.mem.word b.toNat) c).toNat) } := by
  rw [exec_readMem, readIndirect_nat s.mem hb hea, commit_writeValue_nat s _ hd]

theorem exec_notMem_nat :
    exec (.notMem b c d) s =
      .next { s with
        mem := s.mem.put d.toNat (complement (s.mem.word (effectiveAddress (s.mem.word b.toNat) c).toNat)) } := by
  rw [exec_notMem, readIndirect_nat s.mem hb hea, complemented_ok, commit_writeValue_nat s _ hd]

end indirect

/-- Settles O28: one word is put at `C`, and masking is reduction modulo 2^64. -/
theorem loadConstStoresItsConstant : Obligations.LoadConstStoresItsConstant := fun b _ s hm hc =>
  ⟨_, _, exec_loadConst_nat b s hc, storesOnly_put hm _ _, toNat_maskWord b⟩

/-- Settles O29: one word is put at `D`, the one that the indirect read gives. -/
theorem readMemLoadsThroughThePointer : Obligations.ReadMemLoadsThroughThePointer := fun _ _ _ _ hm hb hea hd =>
  ⟨_, exec_readMem_nat hb hea hd, storesOnly_put hm _ _⟩

/-- Settles O30: one word is put at `C`, the one that the direct read gives. -/
theorem writeMemCopiesDirectly : Obligations.WriteMemCopiesDirectly := fun _ _ s hm hb hc =>
  ⟨_, exec_writeMem_nat s hb hc, storesOnly_put hm _ _⟩

/-- Settles O31: one word is put at `D`, and inverting 64 bits is subtraction from 2^64 - 1. -/
theorem notMemStoresTheComplement : Obligations.NotMemStoresTheComplement := fun _ _ _ _ hm hb hea hd =>
  ⟨_, _, exec_notMem_nat hb hea hd, storesOnly_put hm _ _, BitVec.toNat_not⟩

/-- A natural offset is added to the pointer as natural numbers are (R146 (a)). -/
theorem effectiveAddress_natCast (p : Word) (c : Nat) : effectiveAddress p c = ((p.toNat + c : Nat) : Int) :=
  (Int.natCast_add ..).symm

/-- Settles O32: the two stored words, with every address a natural number. -/
theorem oneLevelOfIndirection : Obligations.OneLevelOfIndirection := by
  intro b c d s hm _
  have hb : (0 : Int) ≤ b := Int.natCast_nonneg b
  have hd : (0 : Int) ≤ d := Int.natCast_nonneg d
  have hea : 0 ≤ effectiveAddress (s.mem.word (b : Int).toNat) c := by
    rw [effectiveAddress_natCast]
    exact Int.natCast_nonneg _
  refine ⟨⟨_, exec_readMem_nat hb hea hd, ?_⟩, ⟨_, exec_notMem_nat hb hea hd, ?_⟩⟩ <;>
    simp only [effectiveAddress_natCast, Int.toNat_natCast, Memory.word_put_same hm, complement]

/-! ### Negative addresses -/

/-- Settles O33: the accesses in the order of R58, each failing where those before it do not. -/
theorem negativeAddressesRaiseInvalidAddress : Obligations.NegativeAddressesRaiseInvalidAddress := by
  intro b c d s
  refine ⟨fun hc => ?_, fun hb => ?_, fun hb hc => ?_, ?_⟩
  · rw [exec_loadConst, memWrite_neg s.mem hc, commit_error]
  · rw [exec_writeMem, memRead_neg s.mem hb, commit_writeValue_error]
  · rw [exec_writeMem, memRead_nat s.mem hb, commit_writeValue_neg s _ hc]
  rintro _ rfl
  rw [exec_readMem, exec_notMem]
  refine ⟨fun hb => ?_, fun hb hea => ?_, fun hb hea hd => ?_⟩
  · rw [readIndirect_negPointer s.mem hb, complemented_error]
    exact ⟨commit_writeValue_error s _ d, commit_writeValue_error s _ d⟩
  · rw [readIndirect_negSum s.mem hb hea, complemented_error]
    exact ⟨commit_writeValue_error s _ d, commit_writeValue_error s _ d⟩
  · rw [readIndirect_nat s.mem hb hea, complemented_ok]
    exact ⟨commit_writeValue_neg s _ hd, commit_writeValue_neg s _ hd⟩

/-! ### Frames and inverses -/

/-- Settles O34: a word put at the destination, or a recorded error. -/
theorem instructionsChangeAtMostTheirDestination : Obligations.InstructionsChangeAtMostTheirDestination := by
  intro i s hm
  rcases exec_cases i s with ⟨v, hd, h⟩ | ⟨a, -, h⟩
  · refine ⟨_, h, Memory.wf_put hm .., fun x hx => ?_, rfl, rfl, rfl, rfl, .inl rfl⟩
    exact Memory.word_put_other hm (by omega) v
  · exact ⟨_, h, hm, fun _ _ => rfl, rfl, rfl, rfl, rfl, .inr rfl⟩

/-- Putting the old word back undoes a write: canonical Memories are their contents (R31, R44). -/
theorem Memory.put_put_word {m : Memory} (hm : m.wf = true) (a : Nat) (x : Word) : (m.put a x).put a (m.word a) = m := by
  have hx := Memory.wf_put hm a x
  refine Memory.ext (Memory.wf_put hx ..) hm fun k => ?_
  by_cases hk : k = a
  · rw [hk, Memory.word_put_same hx]
  · rw [Memory.word_put_other hx hk, Memory.word_put_other hm hk]

theorem complement_complement (v : Word) : complement (complement v) = v := BitVec.not_not

/-- `NOT_MEM` in place: the cell that its destination names is the one it reads. -/
theorem exec_notMem_inPlace {b c d : Int} {s : State} (hb : 0 ≤ b) (hd : 0 ≤ d)
    (hea : effectiveAddress (s.mem.word b.toNat) c = d) :
    exec (.notMem b c d) s = .next { s with mem := s.mem.put d.toNat (complement (s.mem.word d.toNat)) } := by
  rw [exec_notMem_nat hb (hea ▸ hd) hd, hea]

/-- Settles O36: the pointer cell is not the destination, so the second execution is in place too, and it puts the old
word back. -/
theorem complementTwiceInPlaceRestores : Obligations.ComplementTwiceInPlaceRestores := by
  intro b c d s hm hb hd hea hne
  have hpointer : b.toNat ≠ d.toNat := by omega
  refine ⟨_, exec_notMem_inPlace hb hd hea.symm, ?_⟩
  rw [exec_notMem_inPlace hb hd (by rw [Memory.word_put_other hm hpointer]; exact hea.symm), Memory.word_put_same hm,
    complement_complement, Memory.put_put_word hm]

end Sys2Proof.Machine
end

section
/-! Loaded programs: what DEC yields raises no error, so a run of it never faults (spec/42_execute_instructions.md R151;
spec/60_exceptions.md R196). -/

namespace Sys2Proof.Machine

/-- Settles O35: what DEC yields dispatches to a well-formed instruction, whose every address is a natural number. -/
theorem decodedInstructionsRaiseNoError : Obligations.DecodedInstructionsRaiseNoError := by
  intro w mi h
  obtain ⟨i, hi, hwf⟩ := decodeWord_dispatch h
  refine ⟨i, hi, decodeInstr_of_dispatch h hi, hwf, fun s => ?_⟩
  obtain ⟨_, -, -, hx⟩ := exec_wellFormed hwf s
  exact ⟨_, hx, rfl⟩

theorem runFetched_of_dispatch {mi : MachineInstruction} {i : Instr} (h : mi.dispatch = .ok i) (s : State) :
    runFetched mi s = retire (exec i s) := by
  rw [runFetched, h]

theorem retire_next {t : State} (h : t.error = none) : retire (.next t) = .next (advance t) := if_pos h

/-- A loaded program's step stores one word and advances: it can neither fail nor be refused (R151, R163). -/
theorem step_of_loaded {s : State} (hl : Loaded s) (hen : enabled s = true) :
    ∃ a v, step s = .next (advance { s with mem := s.mem.put a v }) := by
  obtain ⟨herr, hbound, -⟩ := (enabled_iff s).1 hen
  obtain ⟨mi, hf, hmem⟩ := fetch_of_inBounds hbound
  obtain ⟨i, hi, hwf⟩ := decodeWord_dispatch (hl mi hmem)
  obtain ⟨v, -, -, hx⟩ := exec_wellFormed hwf s
  refine ⟨(destination i).toNat, v, ?_⟩
  rw [step_enabled hen hf, runFetched_of_dispatch hi, hx]
  exact retire_next herr

/-- Settles O46: the one next state of an enabled step has the program and the absent error of the state before. -/
theorem loadedProgramsNeverFault : Obligations.LoadedProgramsNeverFault := by
  intro s hl herr
  refine ⟨fun hrun => ?_, fun t ht => ?_⟩
  · obtain ⟨_, _, h⟩ := step_of_loaded hl (decide_eq_true hrun)
    exact ⟨_, h⟩
  · obtain ⟨_, _, h⟩ := step_of_loaded hl (step_next ht).1
    cases h.symm.trans ht
    exact ⟨hl, herr, rfl⟩

end Sys2Proof.Machine
end

section
/-! There is no control transfer: `pc` counts the steps, and each step fetches the next instruction
(spec/42_execute_instructions.md R148). -/

namespace Sys2Proof.Machine

theorem exec_pc {i : Instr} {s t : State} (h : exec i s = .next t) : t.pc = s.pc := by
  rcases exec_cases i s with ⟨v, -, hx⟩ | ⟨a, -, hx⟩ <;> (cases hx.symm.trans h; rfl)

/-- A step that records no error counts one step (R163). -/
theorem step_steps {s t : State} (h : step s = .next t) (he : t.error = none) : t.steps = s.steps + 1 := by
  obtain ⟨-, _, -, -, ⟨i, v, -, -, -, rfl⟩ | ⟨e, -, rfl⟩⟩ := step_next h
  · rfl
  · cases he

theorem error_none_of_step {s t : State} (h : step s = .next t) : s.error = none :=
  ((enabled_iff s).1 (step_next h).1).1

/-- Steps that end without an error begin without one: Faulted is terminal (R196). -/
theorem error_none_of_stepsTo {j : Nat} {s t : State} (h : stepsTo j s t) (he : t.error = none) : s.error = none := by
  cases j with
  | zero => exact (congrArg State.error h).trans he
  | succ j =>
    obtain ⟨u, hu, -⟩ := h
    exact error_none_of_step hu

theorem stepsTo_pc {j : Nat} {s t : State} (h : stepsTo j s t) (he : t.error = none) : t.pc = s.pc + j := by
  induction j generalizing s with
  | zero => exact (congrArg State.pc h).symm
  | succ j ih =>
    obtain ⟨u, hu, hut⟩ := h
    rw [ih hut, step_pc hu (error_none_of_stepsTo hut he), Nat.add_assoc, Nat.add_comm 1]

theorem stepsTo_program {j : Nat} {s t : State} (h : stepsTo j s t) : t.program = s.program :=
  stepsTo_keeps (P := fun u => u.program = s.program) (fun _ _ hp hs => (step_keeps_program_budget hs).1.trans hp) rfl h

/-- Steps in a row are steps to a state in between and steps from there. -/
theorem stepsTo_add {k j : Nat} {s t : State} : stepsTo (k + j) s t ↔ ∃ u, stepsTo k s u ∧ stepsTo j u t := by
  induction k generalizing s with
  | zero => simp [stepsTo]
  | succ k ih =>
    rw [Nat.succ_add]
    simp only [stepsTo, ih]
    exact ⟨fun ⟨v, hv, u, hu, ht⟩ => ⟨u, ⟨v, hv, hu⟩, ht⟩, fun ⟨u, ⟨v, hv, hu⟩, ht⟩ => ⟨v, hv, u, hu, ht⟩⟩

/-- Each step of a run without an error fetched the instruction at the index that is the number of steps before it. -/
theorem stepsTo_fetch {j k : Nat} {s t : State} (h : stepsTo j s t) (hk : k < j) :
    ∃ u mi, stepsTo k s u ∧ u.pc = s.pc + k ∧ fetch u = some mi ∧ s.program[s.pc + k]? = some mi := by
  obtain ⟨l, rfl⟩ := Nat.exists_eq_add_of_lt hk
  obtain ⟨u, hu, v, huv, -⟩ := stepsTo_add.1 (Nat.add_assoc k l 1 ▸ h)
  have hen := (step_next huv).1
  have hpc := stepsTo_pc hu (error_none_of_step huv)
  obtain ⟨mi, hf, -⟩ := fetch_of_inBounds ((enabled_iff u).1 hen).2.1
  refine ⟨u, mi, hu, hpc, hf, ?_⟩
  rw [← hpc, ← stepsTo_program hu]
  exact hf

/-- Settles O48: no effect writes `pc`, and from the start of a run `pc` is the number of steps taken. -/
theorem everyInstructionIsFollowedByTheNext : Obligations.EveryInstructionIsFollowedByTheNext := by
  refine ⟨fun _ _ _ => exec_pc, fun s t h he => ?_, fun p n m j t h he => ?_⟩
  · obtain ⟨hp, hb⟩ := step_keeps_program_budget h
    exact ⟨step_pc h he, step_steps h he, hp, hb⟩
  · have hfetched : ∀ k, k < j → ∃ u mi, stepsTo k (startOver p n m) u ∧ u.pc = k ∧ fetch u = some mi ∧
        p[k]? = some mi := fun k hk => by simpa using stepsTo_fetch h hk
    refine ⟨by simpa using stepsTo_pc h he, le_of_forall_lt fun k hk => ?_, hfetched⟩
    obtain ⟨_, _, -, -, -, hp⟩ := hfetched k hk
    exact (List.getElem?_eq_some_iff.1 hp).1

end Sys2Proof.Machine
end

section
/-! A hand-built Machine Instruction that lacks a field (spec/42_execute_instructions.md R152 (d); U6, log 8). -/

namespace Sys2Proof

/-- `f` is the first of `names` that the mapping lacks. -/
def MachineInstruction.FirstMissing (mi : MachineInstruction) (names : List String) (f : String) : Prop :=
  ∃ present rest, names = present ++ f :: rest ∧ (∀ g ∈ present, mi.fields.lookup g ≠ none) ∧ mi.fields.lookup f = none

theorem MachineInstruction.FirstMissing.mem {mi : MachineInstruction} {names : List String} {f : String}
    (h : mi.FirstMissing names f) : f ∈ names ∧ mi.fields.lookup f = none := by
  obtain ⟨present, rest, rfl, -, hf⟩ := h
  exact ⟨by simp, hf⟩

/-- `r` comes of reading the fields `names` in order: an instruction where the mapping has them all, and the first
missing one otherwise. -/
def MachineInstruction.ReadsInOrder (mi : MachineInstruction) (names : List String) (r : Except DispatchError Instr) :
    Prop :=
  ((∀ f ∈ names, mi.fields.lookup f ≠ none) ∧ ∃ i, r = .ok i) ∨
    ∃ f, mi.FirstMissing names f ∧ r = .error (.missingField mi.definition.mnemonic f)

theorem MachineInstruction.ReadsInOrder.nil {mi : MachineInstruction} (i : Instr) : mi.ReadsInOrder [] (.ok i) :=
  .inl ⟨by simp, i, rfl⟩

/-- Reading one more field first. -/
theorem MachineInstruction.ReadsInOrder.cons {mi : MachineInstruction} {n : String} {names : List String}
    {k : Int → Except DispatchError Instr} (h : ∀ v, mi.ReadsInOrder names (k v)) :
    mi.ReadsInOrder (n :: names) (mi.operand n >>= k) := by
  rcases operand_cases mi n with ⟨v, hv, hop⟩ | ⟨hv, hop⟩
  · have hn : mi.fields.lookup n ≠ none := hv ▸ Option.some_ne_none v
    rw [hop]
    rcases h v with ⟨hall, i, hi⟩ | ⟨f, ⟨present, rest, hsplit, hpresent, hf⟩, hr⟩
    · exact .inl ⟨List.forall_mem_cons.2 ⟨hn, hall⟩, i, hi⟩
    · exact .inr ⟨f, ⟨n :: present, rest, congrArg (n :: ·) hsplit, List.forall_mem_cons.2 ⟨hn, hpresent⟩, hf⟩, hr⟩
  · rw [hop]
    exact .inr ⟨n, ⟨[], names, rfl, by simp, hv⟩, rfl⟩

/-- Dispatch reads the fields that the source gives to the mnemonic, in the order `B`, `C`, `D` (R74, R140; log 8). -/
theorem dispatch_readsInOrder {mi : MachineInstruction} {names : List String}
    (h : (mi.definition.mnemonic, names) ∈ Schema.sourceNames) : mi.ReadsInOrder names mi.dispatch := by
  simp only [Schema.sourceNames, List.mem_cons, List.not_mem_nil, or_false, Prod.mk.injEq] at h
  rw [MachineInstruction.dispatch]
  rcases h with ⟨hm, rfl⟩ | ⟨hm, rfl⟩ | ⟨hm, rfl⟩ | ⟨hm, rfl⟩ <;> simp only [hm, reduceIte, String.reduceEq]
  · exact .cons fun b => .cons fun c => .nil (.loadConst b c)
  · exact .cons fun b => .cons fun c => .cons fun d => .nil (.readMem b c d)
  · exact .cons fun b => .cons fun c => .nil (.writeMem b c)
  · exact .cons fun b => .cons fun c => .cons fun d => .nil (.notMem b c d)

namespace Machine

/-- Whatever dispatches answers a next state (R140, R163). -/
theorem runFetched_next {mi : MachineInstruction} {i : Instr} (h : mi.dispatch = .ok i) {s : State}
    (he : s.error = none) : ∃ t, runFetched mi s = .next t := by
  rcases runFetched_cases mi he with ⟨_, _, -, -, -, hr⟩ | ⟨_, -, hr⟩ | ⟨_, _, hmissing, -⟩
  · exact ⟨_, hr⟩
  · exact ⟨_, hr⟩
  · cases h.symm.trans hmissing

theorem runFetched_missingField {mi : MachineInstruction} {m f : String} (h : mi.dispatch = .error (.missingField m f))
    (s : State) : runFetched mi s = .refused (.missingField m f) := by
  rw [runFetched, h]

/-- Settles O51: either every field is there and the step is taken, or one is missing and the first such is named. -/
theorem missingFieldIsRefused : Obligations.MissingFieldIsRefused := by
  intro s mi names hen hfetch hsource
  rw [step_enabled hen hfetch]
  rcases dispatch_readsInOrder hsource with ⟨hall, i, hi⟩ | ⟨f, hfirst, hr⟩
  · obtain ⟨t, ht⟩ := runFetched_next hi ((enabled_iff s).1 hen).1
    rw [ht]
    refine ⟨⟨?_, ?_⟩, ⟨fun _ => ⟨t, rfl⟩, fun _ => hall⟩⟩
    · rintro ⟨f, hf, hnone⟩
      exact absurd hnone (hall f hf)
    · rintro ⟨_, _, _, -, -, -, h⟩
      cases h
  · obtain ⟨hmem, hnone⟩ := hfirst.mem
    obtain ⟨present, rest, hsplit, hpresent, -⟩ := hfirst
    rw [runFetched_missingField hr]
    refine ⟨⟨fun _ => ⟨present, f, rest, hsplit, hpresent, hnone, rfl⟩, fun _ => ⟨f, hmem, hnone⟩⟩, ⟨?_, ?_⟩⟩
    · exact fun hall => absurd hnone (hall f hmem)
    · rintro ⟨_, h⟩
      cases h

end Machine
end Sys2Proof
end

section
/-! The four run states and the stops (spec/43_engine_harness.md R162, R164; spec/10_state.md R25). -/

namespace Sys2Proof.Machine

/-! ### What each run state says -/

theorem inBounds_eq_false_iff (s : State) : inBounds s = false ↔ s.program.length ≤ s.pc := by simp [inBounds]

theorem budgetAllows_iff_none_or (s : State) :
    budgetAllows s = true ↔ s.budget = none ∨ ∃ b, s.budget = some b ∧ s.steps < b := by
  rw [budgetAllows]
  cases s.budget <;> simp

theorem budgetAllows_eq_false_iff (s : State) : budgetAllows s = false ↔ ∃ b, s.budget = some b ∧ b ≤ s.steps := by
  rw [budgetAllows]
  cases s.budget <;> simp

theorem runState_faulted (s : State) : runState s = .faulted ↔ s.error ≠ none := by
  rw [runState]
  split_ifs with herr <;> simp [herr]

theorem runState_halted (s : State) : runState s = .halted ↔ s.error = none ∧ s.program.length ≤ s.pc := by
  rw [runState, ← inBounds_eq_false_iff]
  split_ifs with herr hend <;> simp_all

theorem runState_suspended (s : State) :
    runState s = .suspendedByBudget ↔
      s.error = none ∧ s.pc < s.program.length ∧ ∃ b, s.budget = some b ∧ b ≤ s.steps := by
  rw [runState, ← inBounds_iff, ← budgetAllows_eq_false_iff]
  split_ifs with herr hend hspent <;> simp_all

/-- Settles O41: the tests of the run state in their order, an error, the program's end, the budget. -/
theorem runsEndHaltedOrSuspended : Obligations.RunsEndHaltedOrSuspended := by
  intro s hrun
  refine ⟨(runState_faulted s).2, fun he hend => (runState_halted s).2 ⟨he, hend⟩, fun he hbound => ?_⟩
  have hspent : ∃ b, s.budget = some b ∧ b ≤ s.steps := by
    rw [← budgetAllows_eq_false_iff, Bool.eq_false_iff]
    exact fun hallows => hrun ((runState_running s).2 ⟨he, (inBounds_iff s).2 hbound, hallows⟩)
  exact ⟨(runState_suspended s).2 ⟨he, hbound, hspent⟩, hspent⟩

/-- Settles O43: the fields that the start of a run sets, and the run state they make. -/
theorem startOfRunResets : Obligations.StartOfRunResets := by
  intro n s
  refine ⟨rfl, rfl, Memory.word_nil, rfl, rfl, rfl, ?_⟩
  split_ifs with hempty hzero
  · exact (runState_halted _).2 ⟨rfl, hempty.le⟩
  · exact (runState_suspended _).2 ⟨rfl, Nat.pos_of_ne_zero hempty, 0, hzero, le_rfl⟩
  · refine (runState_running _).2 ⟨rfl, (inBounds_iff _).2 (Nat.pos_of_ne_zero hempty), ?_⟩
    exact (budgetAllows_iff _).2 fun b hb => Nat.pos_of_ne_zero fun h0 => hzero (h0 ▸ hb)

/-! ### The stops -/

theorem terminalFault_faulted (s : State) (e : MachineError) :
    terminalFault s = some (.faulted e) ↔ s.error = some e := by
  rw [terminalFault]
  cases s.error with
  | some e' => simp
  | none => dsimp only; split_ifs <;> simp

theorem terminalFault_halted (s : State) : terminalFault s = some .halted ↔ runState s = .halted := by
  rw [terminalFault, runState]
  cases s.error with
  | some e => simp
  | none => dsimp only; split_ifs <;> simp_all

theorem terminalFault_suspended (s : State) :
    terminalFault s = some .suspendedByBudget ↔ runState s = .suspendedByBudget := by
  rw [terminalFault, runState]
  cases s.error with
  | some e => simp
  | none => dsimp only; split_ifs <;> simp_all

/-- Settles O42: `step` stops under the name of the terminal state, and each name is given in one state. -/
theorem terminalStatesStopByName : Obligations.TerminalStatesStopByName := fun s =>
  ⟨step_fault.trans (terminalFault_halted s), step_fault.trans (terminalFault_suspended s),
    fun e => step_fault.trans (terminalFault_faulted s e)⟩

theorem enabled_iff_running (s : State) : enabled s = true ↔ runState s = .running := by
  rw [enabled, decide_eq_true_eq]

/-- An enabled step answers a next state or refuses a fetched instruction that lacks a field (R162; U6, log 8). -/
theorem step_next_or_refused {s : State} (hen : enabled s = true) :
    (∃ t, step s = .next t) ∨
      ∃ mi f, fetch s = some mi ∧ mi.fields.lookup f = none ∧
        step s = .refused (.missingField mi.definition.mnemonic f) := by
  obtain ⟨herr, hbound, -⟩ := (enabled_iff s).1 hen
  obtain ⟨mi, hf, -⟩ := fetch_of_inBounds hbound
  rw [step_enabled hen hf]
  rcases runFetched_cases mi herr with ⟨_, _, -, -, -, hr⟩ | ⟨_, -, hr⟩ | ⟨m, f, hmissing, hr⟩
  · exact .inl ⟨_, hr⟩
  · exact .inl ⟨_, hr⟩
  · obtain ⟨rfl, hnone⟩ := dispatch_missingField hmissing
    exact .inr ⟨mi, f, hf, hnone, hr⟩

/-- Settles O40: the three conditions of Running, and that a next state comes from an enabled step only. -/
theorem stepEnabledExactlyWhenRunning : Obligations.StepEnabledExactlyWhenRunning := by
  intro s
  refine ⟨?_, fun hrun t ht => hrun ((enabled_iff_running s).1 (step_next ht).1), fun hrun => ?_⟩
  · rw [runState_running, inBounds_iff, budgetAllows_iff_none_or]
  · exact step_next_or_refused ((enabled_iff_running s).2 hrun)

end Sys2Proof.Machine
end

section
/-! The step as the effect of the instruction it fetches, whichever way that instruction came into the program store
(spec/43_engine_harness.md R163; spec/41_decoder_loader.md R126, R130). -/

namespace Sys2Proof.Machine

theorem step_of_dispatch {s : State} {mi : MachineInstruction} {i : Instr} (hen : enabled s = true)
    (hf : fetch s = some mi) (hi : mi.dispatch = .ok i) : step s = retire (exec i s) := by
  rw [step_enabled hen hf, runFetched_of_dispatch hi]

theorem retire_error {t : State} (h : t.error ≠ none) : retire (.next t) = .next t := if_neg h

theorem exec_steps {i : Instr} {s t : State} (h : exec i s = .next t) : t.steps = s.steps := by
  rcases exec_cases i s with ⟨v, -, hx⟩ | ⟨a, -, hx⟩ <;> (cases hx.symm.trans h; rfl)

/-- Settles O38: the step retires the effect, and no effect writes the counters. -/
theorem stepRunsTheFetchedInstruction : Obligations.StepRunsTheFetchedInstruction := by
  intro s t mi i hen hf hi hx
  rw [step_of_dispatch hen hf hi, hx, ← exec_pc hx, ← exec_steps hx]
  exact ⟨retire_next, retire_error⟩

/-- The step on a well-formed instruction: its effect, which is on Memory alone, and the increments (R151, R163). -/
theorem step_of_wellFormed {s : State} {mi : MachineInstruction} {i : Instr} (hen : enabled s = true)
    (hf : fetch s = some mi) (hi : mi.dispatch = .ok i) (hwf : i.wellFormed = true) :
    ∃ m, exec i s = .next { s with mem := m } ∧ step s = .next (advance { s with mem := m }) := by
  obtain ⟨v, -, -, hx⟩ := exec_wellFormed hwf s
  refine ⟨_, hx, ?_⟩
  rw [step_of_dispatch hen hf hi, hx]
  exact retire_next ((enabled_iff s).1 hen).1

/-- What `decodeInstr` answers is what the decoded Machine Instruction dispatches to (R123, R140). -/
theorem decodeInstr_ok {w : InstrWord} {i : Instr} (h : decodeInstr w = .ok i) :
    ∃ mi, decodeWord w = .ok mi ∧ mi.dispatch = .ok i ∧ i.wellFormed = true := by
  cases hdec : decodeWord w with
  | error e =>
    rw [decodeInstr, hdec] at h
    cases h
  | ok mi =>
    obtain ⟨j, hj, hwf⟩ := decodeWord_dispatch hdec
    cases h.symm.trans (decodeInstr_of_dispatch hdec hj)
    exact ⟨mi, rfl, hj, hwf⟩

/-- Bytes that hold an instruction are the 14 bytes of its word. -/
theorem decodeInstr_of_decodeBytes {b : List Byte} {i : Instr} (h : decodeBytes b = .ok i) :
    decodeInstr (wordOf b) = .ok i := by
  rw [decodeBytes] at h
  split at h
  · exact h
  · cases h

/-- Settles O37: the fetched instruction is what DEC yields for the chunk at `pc`. -/
theorem stepRunsTheDecodedInstruction : Obligations.StepRunsTheDecodedInstruction := by
  intro b s i hload herr hbound hbudget hbytes
  have hen : enabled s = true := (enabled_iff s).2 ⟨herr, (inBounds_iff s).2 hbound, (budgetAllows_iff s).2 hbudget⟩
  obtain ⟨mi, hf, -⟩ := fetch_of_inBounds ((inBounds_iff s).2 hbound)
  obtain ⟨hchunk, -⟩ := ((loadDecodesChunksInOrder schema b).2 (loadIn_ok hload).1).1 s.program
  obtain ⟨mi', hdec, hi, hwf⟩ := decodeInstr_ok (decodeInstr_of_decodeBytes hbytes)
  cases hdec.symm.trans ((hchunk hload).2 s.pc mi hf)
  obtain ⟨m, hx, hstep⟩ := step_of_wellFormed hen hf hi hwf
  exact ⟨_, hx, hstep⟩

/-! ### A placed word -/

/-- The budget that is left never stops the next step (log 4). -/
theorem lt_of_openBudget {s : State} {b : Nat} (h : openBudget s = some b) : s.steps < b := by
  rw [openBudget] at h
  split at h
  · cases h
  · split_ifs at h with hlt
    exact Option.some.inj h ▸ hlt

theorem enabled_withFetched (mi : MachineInstruction) (s : State) : enabled (withFetched mi s) = true := by
  refine (enabled_iff _).2 ⟨rfl, (inBounds_iff _).2 ?_, (budgetAllows_iff _).2 fun b => lt_of_openBudget⟩
  exact (List.getElem?_eq_some_iff.1 (fetch_withFetched mi s)).1

theorem withFetchWord_of_decodeWord {s : State} {nbits w : Nat} {mi : MachineInstruction}
    (h : decodeWord (tableWord nbits w) = .ok mi) : s.withFetchWord nbits w = withFetched mi s := by
  rw [State.withFetchWord, h]

/-- Settles O39: the word decodes, so it is placed, enabled and fetched. -/
theorem placedWordRunsNext : Obligations.PlacedWordRunsNext := by
  intro s w i h
  have hword : decodeInstr (tableWord 112 w) = .ok i := by
    rw [decodeTableWord_eq] at h
    cases hr : decodeInstr (tableWord 112 w) with
    | error e =>
      rw [hr] at h
      cases h
    | ok j =>
      rw [hr] at h
      exact congrArg Except.ok (Option.some.inj h)
  obtain ⟨mi, hdec, hi, hwf⟩ := decodeInstr_ok hword
  rw [withFetchWord_of_decodeWord hdec]
  obtain ⟨m, hx, hstep⟩ := step_of_wellFormed (enabled_withFetched mi s) (fetch_withFetched mi s) hi hwf
  exact ⟨_, hx, hstep⟩

end Sys2Proof.Machine
end

section
/-! The length of a run and its prefixes (spec/43_engine_harness.md R168, R169). -/

namespace Sys2Proof.Machine

/-- Settles O55: the last of `j` steps fetched the instruction at index `j - 1`. -/
theorem runsTakeAtMostTheProgramsLength : Obligations.RunsTakeAtMostTheProgramsLength := by
  intro p n m j t h
  refine le_of_forall_lt fun k hk => ?_
  obtain ⟨_, _, -, -, -, hp⟩ := stepsTo_fetch h hk
  simpa using (List.getElem?_eq_some_iff.1 hp).1

/-! ### The same steps under another budget -/

/-- `s` with another step cap. -/
def withBudget (n : Option Nat) (s : State) : State := { s with budget := n }

/-- Committing and retiring keep the budget and do not read it (R163). -/
theorem retire_commit_withBudget {r : Except MachineError Memory} {s t : State} (n : Option Nat)
    (h : retire (commit r s) = .next t) : retire (commit r (withBudget n s)) = .next (withBudget n t) := by
  cases r with
  | ok m =>
    by_cases herr : s.error = none
    · cases (retire_next (t := { s with mem := m }) herr).symm.trans h
      exact retire_next herr
    · cases (retire_error (t := { s with mem := m }) herr).symm.trans h
      exact retire_error herr
  | error e =>
    cases h
    rfl

/-- No instruction reads the budget (R140, R163). -/
theorem runFetched_withBudget {mi : MachineInstruction} {s t : State} (n : Option Nat)
    (h : runFetched mi s = .next t) : runFetched mi (withBudget n s) = .next (withBudget n t) := by
  cases hd : mi.dispatch with
  | ok i =>
    obtain ⟨g, hg⟩ := exec_reads_mem i
    rw [runFetched_of_dispatch hd, hg] at h ⊢
    exact retire_commit_withBudget n h
  | error x =>
    rw [runFetched, hd] at h ⊢
    cases x <;> cases h
    rfl

/-- A step is the step under any budget that allows it (R162, R163). -/
theorem step_withBudget {s t : State} {n : Option Nat} (hn : ∀ b, n = some b → s.steps < b) (h : step s = .next t) :
    step (withBudget n s) = .next (withBudget n t) := by
  obtain ⟨hen, mi, hf, -⟩ := step_next h
  obtain ⟨herr, hbound, -⟩ := (enabled_iff s).1 hen
  have hen' : enabled (withBudget n s) = true := (enabled_iff _).2 ⟨herr, hbound, (budgetAllows_iff _).2 hn⟩
  have hf' : fetch (withBudget n s) = some mi := hf
  rw [step_enabled hen hf] at h
  rw [step_enabled hen' hf']
  exact runFetched_withBudget n h

/-- A step counts at most one step (R163). -/
theorem step_steps_le {s t : State} (h : step s = .next t) : t.steps ≤ s.steps + 1 := by
  obtain ⟨-, _, -, -, ⟨i, v, -, -, -, rfl⟩ | ⟨e, -, rfl⟩⟩ := step_next h
  · exact le_rfl
  · exact Nat.le_succ _

theorem stepsTo_withBudget {j : Nat} {s t : State} {n : Option Nat} (hn : ∀ b, n = some b → s.steps + j ≤ b)
    (h : stepsTo j s t) : stepsTo j (withBudget n s) (withBudget n t) := by
  induction j generalizing s with
  | zero => exact congrArg (withBudget n) h
  | succ j ih =>
    obtain ⟨u, hu, hut⟩ := h
    have hle := step_steps_le hu
    refine ⟨withBudget n u, step_withBudget (fun b hb => ?_) hu, ih (fun b hb => ?_) hut⟩
    · have := hn b hb
      omega
    · have := hn b hb
      omega

/-- Settles O54: a budget of at least `k` allows each of the first `j ≤ k` steps. -/
theorem smallerBudgetsRunAPrefix : Obligations.SmallerBudgetsRunAPrefix := by
  intro p m k j n t hjk hn h
  refine stepsTo_withBudget (fun b hb => ?_) h
  rw [startOver_steps, Nat.zero_add]
  exact hjk.trans (hn b hb)

end Sys2Proof.Machine
end

section
/-! The closed form of a run of a loaded program (spec/43_engine_harness.md R165, R166). -/

namespace Sys2Proof.Machine

/-! ### The effects one after the other -/

theorem effectOn_of_next {mi : MachineInstruction} {i : Instr} {s t : State} (hi : mi.dispatch = .ok i)
    (hx : exec i s = .next t) : effectOn s mi = t := by
  simp only [effectOn, hi, hx]

/-- The Memory after an effect is a function of the Memory before it (R140). -/
theorem effectOn_mem_congr (mi : MachineInstruction) {s t : State} (h : s.mem = t.mem) :
    (effectOn s mi).mem = (effectOn t mi).mem := by
  cases hi : mi.dispatch with
  | error x => simpa only [effectOn, hi] using h
  | ok i =>
    obtain ⟨g, hg⟩ := exec_reads_mem i
    simp only [effectOn, hi, hg, h]
    cases g t.mem with
    | ok m => rfl
    | error e => exact h

/-- One more instruction is one more effect on the Memory so far. -/
theorem foldMem_concat {mis : List MachineInstruction} {s : State} (h : s.mem = foldMem mis) (mi : MachineInstruction) :
    foldMem (mis ++ [mi]) = (effectOn s mi).mem := by
  rw [foldMem, List.foldl_append]
  refine effectOn_mem_congr mi (Eq.trans ?_ h.symm)
  exact List.foldl_rel (r := fun s t : State => s.mem = t.mem) rfl fun mi _ _ _ => effectOn_mem_congr mi

/-! ### The states of a run -/

/-- The state of a run of `p` with budget `n` after `j` instructions: each of the first `j` took effect once, in order
(R166). -/
def afterSteps (p : List MachineInstruction) (n : Option Nat) (j : Nat) : State :=
  { pc := j, steps := j, budget := n, program := p, mem := foldMem (p.take j), error := none }

theorem afterSteps_zero (p : List MachineInstruction) (n : Option Nat) : afterSteps p n 0 = startOver p n [] := rfl

theorem lt_runLength_iff {len j : Nat} {n : Option Nat} :
    j < runLength len n ↔ j < len ∧ ∀ b, n = some b → j < b := by
  cases n <;> simp [runLength]

/-- A run of `p` is Running below its closed-form length and nowhere else (R162, R166). -/
theorem enabled_afterSteps (p : List MachineInstruction) (n : Option Nat) (j : Nat) :
    enabled (afterSteps p n j) = true ↔ j < runLength p.length n := by
  rw [enabled_iff, inBounds_iff, budgetAllows_iff, lt_runLength_iff]
  simp [afterSteps]

theorem step_afterSteps {p : List MachineInstruction} {n : Option Nat} {j : Nat}
    (hl : ∀ mi ∈ p, decodeWord mi.raw = .ok mi) (hj : j < runLength p.length n) :
    step (afterSteps p n j) = .next (afterSteps p n (j + 1)) := by
  have hbound : j < p.length := (lt_runLength_iff.1 hj).1
  obtain ⟨i, hi, hwf⟩ := decodeWord_dispatch (hl p[j] (List.getElem_mem hbound))
  obtain ⟨m, hx, hstep⟩ := step_of_wellFormed ((enabled_afterSteps p n j).2 hj) (List.getElem?_eq_getElem hbound) hi hwf
  obtain rfl : foldMem (p.take (j + 1)) = m := by
    rw [List.take_succ_eq_append_getElem hbound, foldMem_concat (s := afterSteps p n j) rfl, effectOn_of_next hi hx]
  exact hstep

/-- The run of a loaded program from any of its states, given enough steps, delivers the state at the closed-form
length (R165, R166). -/
theorem runLoop_afterSteps {p : List MachineInstruction} {n : Option Nat} (hl : ∀ mi ∈ p, decodeWord mi.raw = .ok mi)
    {k j : Nat} (hj : j ≤ runLength p.length n) (hk : runLength p.length n ≤ j + k) :
    runLoop k (afterSteps p n j) = deliver (afterSteps p n (runLength p.length n)) := by
  induction k generalizing j with
  | zero =>
    rw [Nat.le_antisymm hk hj]
    rfl
  | succ k ih =>
    rw [runLoop]
    rcases hj.lt_or_eq with hlt | rfl
    · rw [step_afterSteps hl hlt]
      exact ih hlt (by omega)
    · have hstop : enabled (afterSteps p n (runLength p.length n)) = false :=
        Bool.eq_false_iff.2 fun hen => lt_irrefl _ ((enabled_afterSteps ..).1 hen)
      obtain ⟨f, -, hf⟩ := step_disabled hstop
      rw [hf]

theorem runLength_le (len : Nat) (n : Option Nat) : runLength len n ≤ len := by
  cases n <;> simp [runLength]

/-- The Execution Result of a loaded program of `len` instructions (R166). -/
def closedFormResult (len : Nat) (n : Option Nat) : ExecutionResult :=
  { stepsExecuted := runLength len n, halted := decide (len ≤ runLength len n) }

theorem deliver_afterSteps (p : List MachineInstruction) (n : Option Nat) :
    deliver (afterSteps p n (runLength p.length n)) =
      .ok (closedFormResult p.length n) (foldMem (p.take (runLength p.length n))) := by
  have hhalted : (executionResult (afterSteps p n (runLength p.length n))).halted =
      decide (p.length ≤ runLength p.length n) :=
    Bool.eq_iff_iff.2 ((executionResult_halted _).trans decide_eq_true_iff.symm)
  exact deliver_ok.2 ⟨rfl, congrArg (ExecutionResult.mk _) hhalted, rfl⟩

/-- Settles O52: the loop's fuel is the program's length, which the closed-form length does not exceed. -/
theorem runClosedForm : Obligations.RunClosedForm := by
  intro p n hl
  have hfuel : runLength p.length n ≤ 0 + p.length := (runLength_le p.length n).trans_eq (Nat.zero_add _).symm
  rw [run, runFrom, ← afterSteps_zero, runLoop_afterSteps hl (Nat.zero_le _) hfuel]
  exact deliver_afterSteps p n

end Sys2Proof.Machine
end

section
/-! The canonical chain from IR to dump (spec/43_engine_harness.md R171, R175; spec/60_exceptions.md R187). -/

namespace Sys2Proof.Machine

/-- What `encode_program` rejects ends the chain there (R175). -/
theorem runProgram_of_rejected {irs : List InstructionIR} {e : LocatedError} (h : encodeProgram irs = .error e)
    (n : Option Nat) (first last : Int) : runProgram irs n first last = .err e := by
  rw [runProgram, assemble, h]

/-- What `encode_program` accepts loads and runs to the result of the closed form; the chain's outcome is the dump's
(R131, R166, R175). -/
theorem runProgram_of_accepted {irs : List InstructionIR} {ws : List InstrWord} (h : encodeProgram irs = .ok ws) :
    ∃ p, load (blob ws) = .ok p ∧ p.length = irs.length ∧ ∀ n first last,
      runProgram irs n first last =
        dumpOf (.ok (closedFormResult irs.length n) (foldMem (p.take (runLength irs.length n)))) first last := by
  obtain ⟨p, hload, hlen, -⟩ := encodedProgramsLoad schema irs ws schema_wellFormed h
  refine ⟨p, hload, hlen, fun n first last => ?_⟩
  have hrun := runClosedForm p n fun _ => decodeWordIn_raw_of_loadIn hload
  have hblob : runBlob (blob ws) n first last = dumpOf (run p n) first last := by
    rw [runBlob, load, hload]
  rw [runProgram, assemble, h, closedFormResult, ← hlen, ← hrun]
  exact hblob

theorem dumpOf_ok {m : Memory} {first last : Int} {l : List (Nat × Word)} (h : memDump m first last = .ok l)
    (r : ExecutionResult) : dumpOf (.ok r m) first last = .ok r l := by
  rw [dumpOf, h]

theorem dumpOf_error {m : Memory} {first last : Int} {e : MachineError} (h : memDump m first last = .error e)
    (r : ExecutionResult) : dumpOf (.ok r m) first last = .dumpFailed r e := by
  rw [dumpOf, h]

/-- Settles O57: an accepted program runs to the closed form, and the dump of a valid range is its list of pairs. -/
theorem encodedProgramsRunEndToEnd : Obligations.EncodedProgramsRunEndToEnd := by
  refine fun irs n first last h0 hle => ⟨fun ws henc => ?_, fun e he => runProgram_of_rejected he n first last⟩
  obtain ⟨p, hload, hlen, hchain⟩ := runProgram_of_accepted henc
  obtain ⟨l, hdump, hl, hpairs⟩ :=
    (dumpListsEveryAddressOfTheRange (foldMem (p.take (runLength irs.length n))) first last).1 h0 hle
  exact ⟨p, l, hload, hlen, hl, hpairs, (hchain n first last).trans (dumpOf_ok hdump _)⟩

/-- Settles O58: an accepted program runs to the closed form before the dump refuses the bounds. -/
theorem invalidDumpRangeKeepsTheResult : Obligations.InvalidDumpRangeKeepsTheResult := by
  refine fun irs n first last hrange => ⟨fun ws henc => ?_, fun e he => runProgram_of_rejected he n first last⟩
  obtain ⟨p, -, -, hchain⟩ := runProgram_of_accepted henc
  exact (hchain n first last).trans (dumpOf_error (memDump_noRange _ hrange) _)

end Sys2Proof.Machine
end

section
/-! The length check of the loader (spec/60_exceptions.md R188; spec/41_decoder_loader.md R126, R127). -/

namespace Sys2Proof

/-- On a good length `load` fails only where a chunk does, and a chunk only in its opcode lookup (R124, R127). -/
theorem loadIn_error_of_length {S : Schema} {b : List Byte} {e : LocatedError} (hl : b.length % 14 = 0)
    (h : loadIn S b = .error e) : ∃ op, e.error = .unknownOpcode op := by
  obtain ⟨k, hk, -, -⟩ := decodeChunksIn_error_iff.1 ((loadIn_of_length hl).symm.trans h)
  obtain ⟨-, hchunk⟩ := (chunkResults_chunks_getElem? ..).1 hk
  exact ⟨_, (decodeWordIn_error hchunk).2⟩

/-- Settles O18: a bad length is the malformed binary, and on a good one the only error is a chunk's. -/
theorem malformedBinaryExactlyOnBadLength : Obligations.MalformedBinaryExactlyOnBadLength := by
  refine fun S b => ⟨⟨?_, fun hl => ⟨_, _, loadIn_of_badLength hl⟩⟩, fun e h hl => loadIn_error_of_length hl h⟩
  rintro ⟨n, pos, h⟩ hl
  obtain ⟨op, hop⟩ := loadIn_error_of_length hl h
  cases hop

end Sys2Proof
end

section
/-! The errors of a run: which they are, and that they are precise (spec/60_exceptions.md R190, R194, R196). -/

namespace Sys2Proof.Machine

/-- A step that answers a recorded error has recorded one of the two and changed nothing else (R190, R194). -/
theorem step_error {s t : State} {e : MachineError} (h : step s = .next t) (he : t.error = some e) :
    RunError e ∧ t = { s with error := some e } := by
  obtain ⟨-, _, -, -, ⟨i, v, -, -, -, rfl⟩ | ⟨e', hrun, rfl⟩⟩ := step_next h
  · cases (error_none_of_step h).symm.trans he
  · cases he
    exact ⟨hrun, rfl⟩

theorem step_of_error {s : State} {e : MachineError} (he : s.error = some e) : step s = .fault (.faulted e) :=
  step_fault.2 ((terminalFault_faulted s e).2 he)

/-- Settles O49: an error is recorded and nothing else, and a state with an error recorded is terminal. -/
theorem errorsArePrecise : Obligations.ErrorsArePrecise := fun _ _ _ h he => ⟨(step_error h he).2, step_of_error he⟩

/-! ### What the loop makes of an error -/

theorem deliver_err {s : State} {e : MachineError} : deliver s = .err e ↔ s.error = some e := by
  rw [deliver]
  cases s.error <;> simp

/-- The loop delivers an error only from a state, reached by steps, that has it recorded (R165). -/
theorem stepsTo_of_runLoop_err {k : Nat} {s : State} {e : MachineError} (h : runLoop k s = .err e) :
    ∃ j t, stepsTo j s t ∧ t.error = some e := by
  induction k generalizing s with
  | zero => exact ⟨0, s, rfl, deliver_err.1 h⟩
  | succ k ih =>
    rw [runLoop] at h
    cases hs : step s with
    | next u =>
      rw [hs] at h
      obtain ⟨j, t, hj, ht⟩ := ih h
      exact ⟨j + 1, t, ⟨u, hs, hj⟩, ht⟩
    | fault f =>
      rw [hs] at h
      exact ⟨0, s, rfl, deliver_err.1 h⟩
    | refused r =>
      rw [hs] at h
      cases h

/-- A state with an error recorded delivers it, however many steps are left (R196). -/
theorem runLoop_of_error {s : State} {e : MachineError} (he : s.error = some e) (k : Nat) : runLoop k s = .err e := by
  cases k with
  | zero => exact deliver_err.2 he
  | succ k =>
    rw [runLoop, step_of_error he]
    exact deliver_err.2 he

/-- The loop delivers the error of a state that its steps reach (R165, R196). -/
theorem runLoop_of_stepsTo_error {j k : Nat} {s t : State} {e : MachineError} (hjk : j ≤ k) (h : stepsTo j s t)
    (he : t.error = some e) : runLoop k s = .err e := by
  induction j generalizing s k with
  | zero =>
    cases h
    exact runLoop_of_error he k
  | succ j ih =>
    obtain ⟨k, rfl⟩ := Nat.exists_eq_succ_of_ne_zero (Nat.ne_zero_of_lt hjk)
    obtain ⟨u, hu, hut⟩ := h
    rw [runLoop, hu]
    exact ih (Nat.le_of_succ_le_succ hjk) hut

/-- Settles O56: a run starts without an error, and every error that a step records is one of the two. -/
theorem runsRaiseOnlyTwoErrors : Obligations.RunsRaiseOnlyTwoErrors := by
  intro p n m e h
  obtain ⟨j, t, hj, ht⟩ := stepsTo_of_runLoop_err h
  refine stepsTo_keeps (P := fun u => ∀ x, u.error = some x → RunError x) ?_ ?_ hj e ht
  · exact fun _ _ _ hs _ hx => (step_error hs hx).1
  · rintro _ ⟨⟩

end Sys2Proof.Machine
end

section
/-! A mnemonic outside the four, which only a hand-built Machine Instruction has (spec/60_exceptions.md R189;
spec/42_execute_instructions.md R151, R152 (a)). -/

namespace Sys2Proof.Machine

/-- The step on a foreign mnemonic records it and does nothing else (R163, R189). -/
theorem step_unsupported {s : State} {mi : MachineInstruction} (hen : enabled s = true) (hf : fetch s = some mi)
    (hforeign : mi.definition.mnemonic ∉ ["LOAD_CONST", "READ_MEM", "WRITE_MEM", "NOT_MEM"]) :
    step s = .next { s with error := some (.unsupportedInstruction mi.definition.mnemonic) } := by
  rw [step_enabled hen hf, runFetched, dispatch_unsupported hforeign]
  rfl

/-- One more step at the end. -/
theorem stepsTo_succ {j : Nat} {s t u : State} (h : stepsTo j s t) (hu : step t = .next u) : stepsTo (j + 1) s u :=
  stepsTo_add.2 ⟨t, h, u, hu, rfl⟩

theorem stepsTo_budget {j : Nat} {s t : State} (h : stepsTo j s t) : t.budget = s.budget :=
  stepsTo_keeps (P := fun u => u.budget = s.budget) (fun _ _ hb hs => (step_keeps_program_budget hs).2.trans hb) rfl h

section reached
variable {p : List MachineInstruction} {n : Option Nat} {m : Memory}

/-- After `j` steps without an error, a run whose budget is above `j` fetches the instruction at index `j`
(R162, R163). -/
theorem enabled_fetch_of_stepsTo {j : Nat} {t : State} {x : MachineInstruction} (hm : m.wf = true)
    (h : stepsTo j (startOver p n m) t) (he : t.error = none) (hx : p[j]? = some x) (hn : ∀ b, n = some b → j < b) :
    enabled t = true ∧ fetch t = some x := by
  have hi : Inv t := stepsTo_keeps (fun _ _ => step_keeps_inv) (inv_startOver p n hm) h
  have hpc : t.pc = j := by simpa using stepsTo_pc h he
  have hf : t.program[t.pc]? = some x := by rwa [stepsTo_program h, hpc]
  have hbudget : ∀ b, t.budget = some b → t.steps < b := fun b hb => by
    rw [hi.counters, hpc]
    exact hn b ((stepsTo_budget h).symm.trans hb)
  exact ⟨(enabled_iff t).2 ⟨he, (inBounds_iff t).2 (List.getElem?_eq_some_iff.1 hf).1, (budgetAllows_iff t).2 hbudget⟩, hf⟩

/-- A run takes every step that its budget allows over leading instructions that DEC yielded, without an error,
whatever follows them (R151). -/
theorem exists_stepsTo_of_decoded {before rest : List MachineInstruction} (hm : m.wf = true)
    (hl : ∀ x ∈ before, decodeWord x.raw = .ok x) {j : Nat} (hj : j ≤ before.length) (hn : ∀ b, n = some b → j ≤ b) :
    ∃ t, stepsTo j (startOver (before ++ rest) n m) t ∧ t.error = none := by
  induction j with
  | zero => exact ⟨_, rfl, rfl⟩
  | succ j ih =>
    obtain ⟨t, ht, he⟩ := ih (Nat.le_of_succ_le hj) fun b hb => Nat.le_of_succ_le (hn b hb)
    have hx : (before ++ rest)[j]? = some before[j] := by
      rw [List.getElem?_append_left hj, List.getElem?_eq_getElem hj]
    obtain ⟨hen, hf⟩ := enabled_fetch_of_stepsTo hm ht he hx hn
    obtain ⟨i, hi, hwf⟩ := decodeWord_dispatch (hl _ (List.getElem_mem hj))
    obtain ⟨_, -, hstep⟩ := step_of_wellFormed hen hf hi hwf
    exact ⟨_, stepsTo_succ ht hstep, he⟩

end reached

/-- A run that reaches a foreign mnemonic delivers it (R189, R196). -/
theorem run_unsupported {before after : List MachineInstruction} {mi : MachineInstruction} {n : Option Nat}
    (hl : ∀ x ∈ before, decodeWord x.raw = .ok x)
    (hforeign : mi.definition.mnemonic ∉ ["LOAD_CONST", "READ_MEM", "WRITE_MEM", "NOT_MEM"])
    (hn : ∀ b, n = some b → before.length < b) :
    run (before ++ mi :: after) n = .err (.unsupportedInstruction mi.definition.mnemonic) := by
  obtain ⟨t, ht, he⟩ := exists_stepsTo_of_decoded (rest := mi :: after) (m := []) rfl hl le_rfl fun b hb => (hn b hb).le
  have hx : (before ++ mi :: after)[before.length]? = some mi := by simp
  have hfuel : before.length + 1 ≤ (before ++ mi :: after).length := by simp
  obtain ⟨hen, hf⟩ := enabled_fetch_of_stepsTo rfl ht he hx hn
  exact runLoop_of_stepsTo_error hfuel (stepsTo_succ ht (step_unsupported hen hf hforeign)) rfl

/-- Settles O50: the step records the foreign mnemonic, a run over decoded instructions reaches it, and a loaded program's
run has the closed form, which is no error. -/
theorem unsupportedMnemonicIsFatal : Obligations.UnsupportedMnemonicIsFatal := by
  refine ⟨fun _ _ => step_unsupported, fun _ _ _ _ => run_unsupported, fun b p n m hload => ?_⟩
  rw [runClosedForm p n fun _ => decodeWordIn_raw_of_loadIn hload]
  rintro ⟨⟩

end Sys2Proof.Machine
end

section
/-! Reset establishes the engine's invariants (spec/70_reset_and_hazards.md R210, R211; spec/10_state.md R32). -/

namespace Sys2Proof.Machine

theorem reset_eq_startOver : State.reset = startOver [] none [] := rfl

theorem inv_reset : Inv State.reset :=
  reset_eq_startOver ▸ inv_startOver [] none rfl

/-- The program store survives the reset whatever it holds, so no invariant of the state before it is needed
(R211, R212). -/
theorem inv_startRun (n : Option Nat) (s : State) : Inv (startRun n s) :=
  inv_startOver s.program n rfl

/-- Settles O44: both are starts of a run over the all-zero Memory. -/
theorem invariantsHoldAtReset : Obligations.InvariantsHoldAtReset := ⟨inv_reset, inv_startRun⟩

end Sys2Proof.Machine
end
